-- ==== Sys2Proof/Word.lean ====
section
/-! DEFINITION. The words of the block (00_scope.md R8): bytes, 16-bit register values, 32-bit sums, and the small
fixed-size groups the spec speaks of (four characters, four quadrants, six identity bytes, eight broadcast values). -/

namespace Sys2Proof

/-- A byte, "8 bits, value 0 to 255" (R8). -/
abbrev Byte := BitVec 8

/-- A 16-bit register value or pixel (10_state.md R33, 20_memory.md R62). -/
abbrev Half := BitVec 16

/-- A 32-bit unsigned number: the checksum accumulator, a declared length (10_state.md R22). -/
abbrev Word32 := BitVec 32

/-- Four bytes in arrival order: `lenField`, `cmd` and `csField` of 10_state.md R22. -/
structure Bytes4 where
  b0 : Byte
  b1 : Byte
  b2 : Byte
  b3 : Byte
deriving DecidableEq, Repr, Inhabited

/-- The four bytes on the wire, first byte first (20_memory.md R64). -/
def Bytes4.toList (f : Bytes4) : List Byte := [f.b0, f.b1, f.b2, f.b3]

/-- Four zero bytes: a field after re-init (10_state.md R47). -/
def Bytes4.zero : Bytes4 := ⟨0, 0, 0, 0⟩

/-- `f[i] <- b`; an index above 3 writes nothing. -/
def Bytes4.set (f : Bytes4) (i : Nat) (b : Byte) : Bytes4 :=
  match i with
  | 0 => { f with b0 := b }
  | 1 => { f with b1 := b }
  | 2 => { f with b2 := b }
  | 3 => { f with b3 := b }
  | _ => f

/-- Six bytes: the device-identity value `devId[0..5]` (10_state.md R35). -/
structure Bytes6 where
  b0 : Byte
  b1 : Byte
  b2 : Byte
  b3 : Byte
  b4 : Byte
  b5 : Byte
deriving DecidableEq, Repr, Inhabited

/-- The quadrants of 00_scope.md R10: A top-left, B top-right, C bottom-left, D bottom-right. -/
inductive Quadrant
  | a
  | b
  | c
  | d
deriving DecidableEq, Repr, Inhabited

/-- One value for each quadrant, as `max[q]`, `bx[q]` (10_state.md R33). -/
structure PerQuad (α : Type) where
  a : α
  b : α
  c : α
  d : α
deriving DecidableEq, Repr, Inhabited

/-- `t[q]`. -/
def PerQuad.get {α : Type} (t : PerQuad α) (q : Quadrant) : α :=
  match q with
  | .a => t.a
  | .b => t.b
  | .c => t.c
  | .d => t.d

/-- `t[q] <- v`. -/
def PerQuad.set {α : Type} (t : PerQuad α) (q : Quadrant) (v : α) : PerQuad α :=
  match q with
  | .a => { t with a := v }
  | .b => { t with b := v }
  | .c => { t with c := v }
  | .d => { t with d := v }

/-- "for q in A, B, C, D": the group whose value at `q` is `f q`. -/
def PerQuad.tabulate {α : Type} (f : Quadrant → α) : PerQuad α := ⟨f .a, f .b, f .c, f .d⟩

/-- The same value for every quadrant. -/
def PerQuad.const {α : Type} (v : α) : PerQuad α := ⟨v, v, v, v⟩

/-- Eight values in order: what a broadcast carries, `values: [u16; 8]` (43_quadrant_reducer.md R262). -/
structure Eight (α : Type) where
  v0 : α
  v1 : α
  v2 : α
  v3 : α
  v4 : α
  v5 : α
  v6 : α
  v7 : α
deriving DecidableEq, Repr, Inhabited

/-- Apply a function to each of the eight. -/
def Eight.map {α β : Type} (f : α → β) (e : Eight α) : Eight β :=
  ⟨f e.v0, f e.v1, f e.v2, f e.v3, f e.v4, f e.v5, f e.v6, f e.v7⟩

end Sys2Proof
end

