-- ==== Sys2Proof/Config.lean ====
section
/-! DEFINITION. The parameters of 00_scope.md R7: those with a value, those the spec leaves OPEN (the structure
`Params`, whose value at reset is the opaque `Config.params`), and the free values of the external collaborators. -/

namespace Sys2Proof

/-- The kinds of result one recompute produces for a quadrant (43_quadrant_reducer.md R251). -/
inductive ResultKind
  | max
  | center
  | burnT
deriving DecidableEq, Repr, Inhabited

/-- One of the twelve results of a recompute: what `BCAST_SELECT` chooses from (R7, R262). -/
structure ResultSel where
  kind : ResultKind
  quad : Quadrant
deriving DecidableEq, Repr, Inhabited

/-- The OPEN parameters of R7. The frame sides are held as their excess over 2, so that `2 <= FRAME_W <= 256` and
`2 <= FRAME_H <= 256` hold of every value of the type. DESIGN CHOICE: see notes/assumptions/1.md. Safe. -/
structure Params where
  /-- `FRAME_W - 2`. -/
  extraW : Fin 255
  /-- `FRAME_H - 2`. -/
  extraH : Fin 255
  /-- `ACK_FILLER`. -/
  ackFiller : Byte
  /-- `VERSION_VALUE(0xB2)`. -/
  versionB2 : Byte
  /-- `VERSION_VALUE(0xB3)`. -/
  versionB3 : Byte
  /-- `DEF_XSPLIT`. -/
  defXsplit : Byte
  /-- `DEF_YSPLIT`. -/
  defYsplit : Byte
  /-- `DEF_BX[q]`. -/
  defBurnX : PerQuad Byte
  /-- `DEF_BY[q]`. -/
  defBurnY : PerQuad Byte
  /-- `DEVICE_ID`. -/
  deviceId : Bytes6
  /-- `BCAST_SELECT`. -/
  bcastSelect : Eight ResultSel
deriving DecidableEq, Repr, Inhabited

/-- `FRAME_W`, in 2..256. -/
def Params.frameW (g : Params) : Nat := g.extraW.val + 2

/-- `FRAME_H`, in 2..256. -/
def Params.frameH (g : Params) : Nat := g.extraH.val + 2

/-- The OPEN parameters at reset: no value is known of them (R7). -/
opaque Config.params : Params

/-- `N_PORTS - 1` at reset: `N_PORTS` is "OPEN, at least 1" (R7). -/
opaque Config.extraPorts : Nat

/-- `ackChecksum`: the external function that stamps replies, "an uninterpreted total function of the byte string"
(30_encoding.md R103, 42_command_dispatch_ack.md R203). See notes/assumptions/12.md. Safe. -/
opaque Config.ackChecksum : List Byte → Half

/-- Free value: the answer of the n-th drawn `hw_read` (10_state.md R39, U5). See notes/assumptions/5.md. Safe. -/
opaque Config.sensorDraw : Nat → Byte

/-- Free value: the n-th drawn sample of `stream_conflict` (42_command_dispatch_ack.md R214, U9). See
notes/assumptions/6.md. Safe. -/
opaque Config.conflictDraw : Nat → Bool

namespace Config

/-- `START`, the start marker `'#'`. -/
def start : Byte := 0x23

/-- `LEN_MIN`. -/
def lenMin : Nat := 8

/-- `LEN_SENTINEL`. -/
def lenSentinel : Word32 := 0xFFFFFFFF

/-- `DATA_CAP`. -/
def dataCap : Nat := 512

/-- `CHUNK_CAP`. -/
def chunkCap : Nat := 524

/-- `BYPASS`, the literal "XXXX". -/
def bypass : Bytes4 := ⟨0x58, 0x58, 0x58, 0x58⟩

/-- `CSUM_CMP_BITS`. -/
def csumCmpBits : Nat := 32

/-- `HEX_LOWER_OK`. -/
def hexLowerOk : Bool := true

/-- `POLL_MAX`. -/
def pollMax : Byte := 25

/-- `ANALYSIS_LO`. -/
def analysisLo : Byte := 0xC0

/-- `ANALYSIS_HI`. -/
def analysisHi : Byte := 0xD5

/-- `VERSION_LO`. -/
def versionLo : Byte := 0xB2

/-- `VERSION_HI`. -/
def versionHi : Byte := 0xB3

end Config

end Sys2Proof
end

