-- ==== Sys2Proof/Syntax.lean ====
section
/-! DEFINITION. The commands of the wire protocol as syntax: one constructor of `Instr` for each row of
spec/opcode_table.json (30_encoding.md R109, R110), with its operands in the three forms of R108. -/

namespace Sys2Proof

/-- A two-character hex operand inside `DATA` (30_encoding.md R104 to R108). -/
inductive Operand
  /-- two hex digits, giving an 8-bit value -/
  | ok (v : Byte)
  /-- "`dataLen` is too small to hold it" (R108) -/
  | missing
  /-- "its `hex2` is `INVALID`" (R108) -/
  | malformed
deriving DecidableEq, Repr, Inhabited

/-- A command, as the dispatcher reads it from `cmd[p]` and `data[p]`. -/
inductive Instr
  /-- `WREG`: write one register (42_command_dispatch_ack.md R205) -/
  | wreg (addr : Operand) (value : Operand)
  /-- `RREG`: read one register (R209) -/
  | rreg (addr : Operand)
  /-- `RRSE`: read a sequence of registers (R211) -/
  | rrse (addrs : List Operand)
  /-- `POLL`: set the polling frequency (R214) -/
  | poll (freq : Operand)
  /-- any other four command bytes (R202) -/
  | unknown (cmd : Bytes4)
deriving DecidableEq, Repr, Inhabited

/-- "WREG" = 57 52 45 47 (30_encoding.md R109). -/
def codeWreg : Bytes4 := ⟨0x57, 0x52, 0x45, 0x47⟩

/-- "RREG" = 52 52 45 47 (R109). -/
def codeRreg : Bytes4 := ⟨0x52, 0x52, 0x45, 0x47⟩

/-- "RRSE" = 52 52 53 45 (R109). -/
def codeRrse : Bytes4 := ⟨0x52, 0x52, 0x53, 0x45⟩

/-- "POLL" = 50 4F 4C 4C (R109). -/
def codePoll : Bytes4 := ⟨0x50, 0x4F, 0x4C, 0x4C⟩

/-- The command code of an instruction. -/
def Instr.code : Instr → Bytes4
  | .wreg _ _ => codeWreg
  | .rreg _ => codeRreg
  | .rrse _ => codeRrse
  | .poll _ => codePoll
  | .unknown c => c

end Sys2Proof
end

