-- ==== Sys2Proof/WellFormed.lean ====
section
/-! DEFINITION. Which terms of `Instr` some frame can carry: operands stand at fixed offsets of one data string of at
most 512 bytes (30_encoding.md R104 to R108), and an unknown command is none of the four codes (R110). -/

namespace Sys2Proof

/-- Not a missing operand. -/
def Operand.present : Operand → Bool
  | .missing => false
  | _ => true

/-- One of the four codes of 30_encoding.md R109. -/
def knownCode (c : Bytes4) : Bool :=
  c == codeWreg || c == codeRreg || c == codeRrse || c == codePoll

/-- The most addresses one `RRSE` can carry: `DATA_CAP div 2` (42_command_dispatch_ack.md R212 (c)). -/
def maxAddrs : Nat := Config.dataCap / 2

/-- The terms that a frame can carry. -/
def Instr.wellFormed : Instr → Bool
  | .wreg a v => a.present || !v.present
  | .rreg _ => true
  | .rrse l => l.all Operand.present && l.length ≤ maxAddrs
  | .poll _ => true
  | .unknown c => !knownCode c

end Sys2Proof
end

