-- ==== Sys2Proof/Decode.lean ====
section
/-! DEFINITION. Hex fields (30_encoding.md R96 to R99), the checksum and its verifier (R100, 40_frame_parser.md R147),
the decoding of a dispatched frame and of a byte string (R92, R109, R112), and the encoder of well-formed commands. -/

namespace Sys2Proof

/-- `hexval(c)` of R96, with the parameter `HEX_LOWER_OK` as an argument. -/
def hexvalWith (lowerOk : Bool) (c : Byte) : Option Nat :=
  let n := c.toNat
  if 0x30 ≤ n ∧ n ≤ 0x39 then some (n - 0x30)
  else if 0x41 ≤ n ∧ n ≤ 0x46 then some (n - 0x41 + 10)
  else if 0x61 ≤ n ∧ n ≤ 0x66 ∧ lowerOk = true then some (n - 0x61 + 10)
  else none

/-- `hexval(c)` of R96; `none` is `INVALID`. -/
def hexval (c : Byte) : Option Nat := hexvalWith Config.hexLowerOk c

/-- `hexN(s)` of R97: most significant digit first, all or nothing. -/
def hexNumber : List Byte → Nat → Option Nat
  | [], n => some n
  | c :: s, n =>
    match hexval c with
    | some d => hexNumber s (16 * n + d)
    | none => none

/-- `hex2` of R97. -/
def hex2 (c0 c1 : Byte) : Option Byte :=
  (hexNumber [c0, c1] 0).map (BitVec.ofNat 8)

/-- `hex4` of R97. -/
def hex4 (f : Bytes4) : Option Half :=
  (hexNumber f.toList 0).map (BitVec.ofNat 16)

/-- The upper-case hex digit of a value below 16 (R98). -/
def hexDigit (n : Nat) : Byte :=
  if n < 10 then BitVec.ofNat 8 (0x30 + n) else BitVec.ofNat 8 (0x41 + (n - 10))

/-- `HEX2(v)` of R98. -/
def hexText2 (v : Byte) : List Byte :=
  [hexDigit (v.toNat / 16), hexDigit (v.toNat % 16)]

/-- `HEX4(v)` of R98, as the four characters of a field. -/
def hexField4 (v : Half) : Bytes4 :=
  ⟨hexDigit (v.toNat / 4096), hexDigit (v.toNat / 256 % 16), hexDigit (v.toNat / 16 % 16), hexDigit (v.toNat % 16)⟩

/-- `HEX4(v)` of R98. -/
def hexText4 (v : Half) : List Byte := (hexField4 v).toList

/-- `LenValue(s)` of R99: the sentinel stands for every failed parse. -/
def lenValue (f : Bytes4) : Word32 :=
  match hex4 f with
  | some v => v.setWidth 32
  | none => Config.lenSentinel

/-- The rejection test of 40_frame_parser.md R134, unsigned on 32 bits. -/
def lengthRejected (len : Word32) : Bool :=
  decide (len.toNat < Config.lenMin) || len == Config.lenSentinel

/-- `bodyLimit = min(declaredLength - 4, 4 + DATA_CAP)` (40_frame_parser.md R136). -/
def bodyLimit (len : Word32) : Nat := min (len.toNat - 4) (4 + Config.dataCap)

/-- `acc <- (acc + zext_32(b)) mod 2^32` (40_frame_parser.md R133, R135). -/
def addByte (acc : Word32) (b : Byte) : Word32 := acc + b.setWidth 32

/-- "`sum(bytes) mod 0x100000000`" (R100). -/
def byteSum (s : List Byte) : Word32 := s.foldl addByte 0

/-- `CsumVerify(acc, cs)` of 40_frame_parser.md R147, with `CSUM_CMP_BITS` as an argument. -/
def csumVerifyWith (bits : Nat) (acc : Word32) (cs : Bytes4) : Bool :=
  if cs = Config.bypass then true
  else
    match hex4 cs with
    | none => false
    | some v => v.toNat == acc.toNat % 2 ^ bits

/-- `CsumVerify(acc, cs)` of 40_frame_parser.md R147. -/
def csumVerify (acc : Word32) (cs : Bytes4) : Bool := csumVerifyWith Config.csumCmpBits acc cs

/-- The operand at data bytes `i`, `i + 1` (30_encoding.md R104, R108). -/
def operandAt (data : List Byte) (i : Nat) : Operand :=
  match data.drop i with
  | c0 :: c1 :: _ =>
    match hex2 c0 c1 with
    | some v => .ok v
    | none => .malformed
  | _ => .missing

/-- The address list of `RRSE` (30_encoding.md R107): one operand for each pair of bytes; "a last odd byte is not
part of any operand". -/
def addrList : List Byte → List Operand
  | c0 :: c1 :: rest => operandAt [c0, c1] 0 :: addrList rest
  | _ => []

/-- The dispatcher's reading of an accepted frame, by its command code (42_command_dispatch_ack.md R200, R201): total,
every four bytes are a known or an unknown command. -/
def decodeBody (cmd : Bytes4) (data : List Byte) : Instr :=
  if cmd = codeWreg then .wreg (operandAt data 0) (operandAt data 2)
  else if cmd = codeRreg then .rreg (operandAt data 0)
  else if cmd = codeRrse then .rrse (addrList data)
  else if cmd = codePoll then .poll (operandAt data 0)
  else .unknown cmd

/-- Why a byte string holds no accepted frame at its first start marker (30_encoding.md R111). -/
inductive DecodeError
  /-- no `'#'` in it -/
  | noStart
  /-- it ends before the frame does -/
  | truncated
  /-- R134 rejects the length -/
  | lengthRejected
  /-- R137: the checksum field neither matches nor is the bypass -/
  | checksumMismatch
deriving DecidableEq, Repr

/-- The first four bytes of a byte string as a field, with the rest. -/
def takeField : List Byte → Option (Bytes4 × List Byte)
  | b0 :: b1 :: b2 :: b3 :: rest => some (⟨b0, b1, b2, b3⟩, rest)
  | _ => none

/-- The frame whose start marker has just been taken: `LEN CMD DATA CRC`, its length told by `LEN` alone
(30_encoding.md R92, R112), with the bytes after it. -/
def decodeFrame (w : List Byte) : Except DecodeError (Instr × List Byte) :=
  match takeField w with
  | none => .error .truncated
  | some (len, w1) =>
    if lengthRejected (lenValue len) then .error .lengthRejected
    else
      let dataLen := bodyLimit (lenValue len) - 4
      match takeField w1 with
      | none => .error .truncated
      | some (cmd, w2) =>
        if w2.length < dataLen then .error .truncated
        else
          match takeField (w2.drop dataLen) with
          | none => .error .truncated
          | some (cs, rest) =>
            let data := w2.take dataLen
            if csumVerify (byteSum (len.toList ++ cmd.toList ++ data)) cs then .ok (decodeBody cmd data, rest)
            else .error .checksumMismatch

/-- The first frame of a byte string: "Bytes preceding `#` are discarded" (30_encoding.md R92). -/
def decode : List Byte → Except DecodeError (Instr × List Byte)
  | [] => .error .noStart
  | b :: w => if b = Config.start then decodeFrame w else decode w

/-! ### The encoder -/

/-- `LEN || CMD || data` of a frame with this command code and data (30_encoding.md R93). -/
def frameBody (cmd : Bytes4) (data : List Byte) : List Byte :=
  hexText4 (BitVec.ofNat 16 (8 + data.length)) ++ cmd.toList ++ data

/-- `FrameX(CMD, data)` of 30_encoding.md R116: the frame with the bypass checksum. -/
def frameX (cmd : Bytes4) (data : List Byte) : List Byte :=
  Config.start :: (frameBody cmd data ++ Config.bypass.toList)

/-- `Frame(CMD, data)` of R116: the frame with its own checksum; meant for a sum of at most 0xFFFF (R100). -/
def frame (cmd : Bytes4) (data : List Byte) : List Byte :=
  Config.start :: (frameBody cmd data ++ hexText4 ((byteSum (frameBody cmd data)).setWidth 16))

/-- The data bytes of an operand. DESIGN CHOICE: a malformed operand is written "GG"; see notes/assumptions/13.md. Safe. -/
def encodeOperand : Operand → List Byte
  | .ok v => hexText2 v
  | .missing => []
  | .malformed => [0x47, 0x47]

/-- The data bytes of a command (30_encoding.md R109). -/
def encodeData : Instr → List Byte
  | .wreg a v => encodeOperand a ++ encodeOperand v
  | .rreg a => encodeOperand a
  | .rrse l => l.flatMap encodeOperand
  | .poll f => encodeOperand f
  | .unknown _ => []

/-- The frame of a command, with its own checksum. -/
def encode (i : Instr) : List Byte := frame i.code (encodeData i)

/-! ### Words of the opcode table -/

/-- Byte `j` of a number of 32-bit words numbered as spec/opcode_table.json numbers them: word `j div 4`, its first
byte on the wire the most significant (20_memory.md R66). -/
def tableByte (w : Nat) (j : Nat) : Byte :=
  BitVec.ofNat 8 (w >>> (32 * (j / 4) + 8 * (3 - j % 4)))

/-- The command code in the table's first word. -/
def tableCmd (w : Nat) : Bytes4 := ⟨tableByte w 0, tableByte w 1, tableByte w 2, tableByte w 3⟩

/-- The data bytes the table's further words hold: none for a row of 32 bits. -/
def tableData (nbits w : Nat) : List Byte :=
  (List.range (nbits / 8 - 4)).map fun j => tableByte w (4 + j)

/-- The frame of a table word: the command code and what data bytes the word has, under the bypass checksum. DESIGN
CHOICE: see notes/assumptions/14.md. Safe. -/
def tableFrame (nbits w : Nat) : List Byte := frameX (tableCmd w) (tableData nbits w)

/-- The instruction the decoder reads from a table word. -/
def decodeTableWord (nbits w : Nat) : Option Instr :=
  match decode (tableFrame nbits w) with
  | .ok (i, _) => some i
  | .error _ => none

end Sys2Proof
end

