-- ==== Sys2Proof/Machine/State.lean ====
section
/-! DEFINITION. The state of the block as plain data (10_state.md R20 to R47), the events it takes and the outputs it
makes (60_exceptions.md R291, R296), the reasons it can stop, and the state after hard reset (R45). -/

namespace Sys2Proof.Machine

/-- `ps[p]`, the parser state, this block's program counter (10_state.md R24). -/
inductive ParserState
  | seekStart
  | readLength
  | readBody
  | readChecksum
deriving DecidableEq, Repr, Inhabited

/-- The result of one `Feed` step (10_state.md R27, 40_frame_parser.md R138). -/
inductive FeedResult
  | cont
  | completeOk
  | completeFail
  | reset
deriving DecidableEq, Repr, Inhabited

/-- The error kinds E1 to E6 (60_exceptions.md R280). -/
inductive ErrorKind
  | framingError
  | lengthRejected
  | checksumMismatch
  | unknownCommand
  | invalidCommandData
  | streamingConflict
deriving DecidableEq, Repr, Inhabited

/-- Byte cells by address, in ONE canonical form: addresses strictly rising, no entry equal to what an unlisted
address reads as (`Memory.wf`, `Memory.storeWf` of Machine/Ops.lean). The data buffer of a port (10_state.md R44), an
unlisted index reading 0x00, and the durable store (20_memory.md R63), an unlisted key answering `NONE`. -/
abbrev Memory := List Host.Cell

/-- The state of one port (10_state.md R22, R41). -/
structure Port where
  /-- parser state -/
  ps : ParserState
  /-- bytes received in the current field or body -/
  cnt : BitVec 10
  /-- the four length characters as received -/
  lenField : Bytes4
  /-- the parsed length, or the sentinel -/
  declaredLength : Word32
  /-- command code characters -/
  cmd : Bytes4
  /-- data bytes, index 0..511 -/
  data : Memory
  /-- number of data bytes stored -/
  dataLen : BitVec 10
  /-- the four checksum characters as received -/
  csField : Bytes4
  /-- running checksum accumulator -/
  acc : Word32
  /-- the reply last built -/
  ack : List Byte
  /-- its byte count -/
  ackLen : BitVec 11
deriving DecidableEq, Repr, Inhabited

/-- A port after hard reset (10_state.md R45). -/
def Port.reset : Port where
  ps := .seekStart
  cnt := 0
  lenField := .zero
  declaredLength := 0
  cmd := .zero
  data := []
  dataLen := 0
  csField := .zero
  acc := 0
  ack := []
  ackLen := 0

/-- The Virtual Register Table (10_state.md R33, R35). -/
structure Vrt where
  xsplit : Byte
  ysplit : Byte
  /-- `max[q]` -/
  max : PerQuad Half
  /-- `center[q]` -/
  center : PerQuad Half
  /-- `bx[q]` -/
  burnX : PerQuad Byte
  /-- `by[q]` -/
  burnY : PerQuad Byte
  /-- `bt[q]` -/
  burnT : PerQuad Half
  /-- `devId[0..5]`, reachable at no address (R35) -/
  devId : Bytes6
deriving DecidableEq, Repr, Inhabited

/-- The VRT after hard reset (R45). DESIGN CHOICE: the ten coordinate registers, "unspecified until the boot load", are
0 here; see notes/assumptions/2.md. Unsafe. -/
def Vrt.reset (g : Params) : Vrt where
  xsplit := 0
  ysplit := 0
  max := .const 0
  center := .const 0
  burnX := .const 0
  burnY := .const 0
  burnT := .const 0
  devId := g.deviceId

/-- What the world outside can do to the block (60_exceptions.md R291; R21, R144 and R320 for the host). -/
inductive Event
  /-- a byte is available on port `p` -/
  | byte (p : Nat) (b : Byte)
  /-- a chunk is delivered by one `recv()` of port `p` (40_frame_parser.md R144) -/
  | chunk (p : Nat) (bytes : List Byte)
  /-- session reset of port `p` -/
  | sreset (p : Nat)
  /-- a thermal frame is captured: its pixels in raster order (20_memory.md R62) -/
  | capture (pixels : List Half)
  /-- the host applies hard reset -/
  | hardReset
deriving DecidableEq, Repr, Inhabited

/-- What the block does to the world outside (60_exceptions.md R291, R296, R303; 10_state.md R27). -/
inductive Output
  /-- `emit_ack(p, bytes)`, with its byte count the length of `bytes` -/
  | emitAck (p : Nat) (bytes : List Byte)
  /-- `bcast(values)` -/
  | bcast (values : Eight Half)
  /-- `nv_put(key, value)` -/
  | nvPut (key : Byte) (value : Byte)
  /-- one call of `hw_read(a)` -/
  | hwRead (a : Byte)
  /-- `hw_write(a, v)` -/
  | hwWrite (a : Byte) (v : Byte)
  /-- one call of `ver_read(a)` -/
  | verRead (a : Byte)
  /-- `set_poll(f)` -/
  | setPoll (f : Byte)
  /-- `diag(p, e)` -/
  | diag (p : Nat) (e : ErrorKind)
  /-- the result of a `Feed` step of port `p` -/
  | result (p : Nat) (r : FeedResult)
deriving DecidableEq, Repr, Inhabited

/-- The whole machine: the block's state (`ports`, `vrt`), the external parameters and store it is run with, and the
model's own fields (INVENTORY.md, `## State`). -/
structure State where
  /-- the OPEN parameters of 00_scope.md R7; no step writes them (notes/assumptions/1.md) -/
  params : Params
  /-- the per-port state; `N_PORTS` is the length -/
  ports : List Port
  /-- the Virtual Register Table -/
  vrt : Vrt
  /-- the durable store behind `nv_get` and `nv_put` (notes/assumptions/11.md) -/
  store : Memory
  /-- the port in hand (notes/assumptions/8.md) -/
  hand : Nat
  /-- the boot load is still to be made (notes/assumptions/3.md) -/
  bootPending : Bool
  /-- the events on offer, in the total order of steps (notes/assumptions/4.md) -/
  inputs : List Event
  /-- the sensor's answers on offer for the next `hw_read` calls (notes/assumptions/5.md) -/
  sensorAnswers : List Byte
  /-- the answers on offer for the next samples of `stream_conflict` (notes/assumptions/6.md) -/
  conflictAnswers : List Bool
  /-- how many free values have been drawn -/
  draws : Nat
  /-- the output events so far, oldest first (notes/assumptions/7.md) -/
  outputs : List Output
deriving DecidableEq, Repr

/-- Why the machine stops with a fault. -/
inductive Fault
  /-- Raised by Machine/Agents.lean when an event names a port that does not exist: ports are `0 .. N_PORTS-1`
  (60_exceptions.md R298), so no hardware is offered such an event. Safe. See notes/assumptions/15.md. -/
  | noSuchPort
deriving DecidableEq, Repr

/-- Why the machine gives an event or an instruction no meaning. -/
inductive Refusal
  /-- Raised by `exec` for an instruction that has no meaning yet: none is left. Safe. -/
  | notModelled (mnemonic : String)
  /-- Raised by `recompute` for a frame that is not `FRAME_W x FRAME_H` pixels: "outside the contract and the block has
  no rule for it" (43_quadrant_reducer.md R261, U11). Safe. See notes/assumptions/16.md. -/
  | frameSize
deriving DecidableEq, Repr

/-- The machine right after hard reset and before the boot load (10_state.md R45, 70_reset_and_hazards.md R320), with
nothing on offer and an empty durable store. -/
def State.reset : State where
  params := Config.params
  ports := List.replicate (Config.extraPorts + 1) .reset
  vrt := .reset Config.params
  store := []
  hand := 0
  bootPending := true
  inputs := []
  sensorAnswers := []
  conflictAnswers := []
  draws := 0
  outputs := []

end Sys2Proof.Machine
end

