-- ==== Sys2Proof/Machine/Ops.lean ====
section
/-! DEFINITION. The named operations over byte cells, ports, outputs and the external collaborators, and the raising
of an error: the block's only exception entry (60_exceptions.md R289; there is no return operation, R293). -/

namespace Sys2Proof.Machine

/-! ### Byte cells -/

/-- The byte listed at an address, if one is. -/
def Memory.lookup : Memory → Nat → Option Byte
  | [], _ => none
  | (k, v) :: m, a => if k = a then some v else Memory.lookup m a

/-- List a byte at an address, in rising order of addresses. -/
def Memory.insert : Memory → Nat → Byte → Memory
  | [], a, b => [(a, b)]
  | (k, v) :: m, a, b =>
    if a < k then (a, b) :: (k, v) :: m
    else if a = k then (a, b) :: m
    else (k, v) :: Memory.insert m a b

/-- List nothing at an address. -/
def Memory.erase : Memory → Nat → Memory
  | [], _ => []
  | (k, v) :: m, a => if k = a then m else (k, v) :: Memory.erase m a

/-- The addresses rise strictly, the first above every address of the prefix. -/
def Memory.risingFrom : Nat → Memory → Bool
  | _, [] => true
  | lo, (k, _) :: m => decide (lo ≤ k) && Memory.risingFrom (k + 1) m

/-- What an unlisted index of a data buffer reads as (10_state.md R30, R45; notes/assumptions/10.md). -/
def Memory.unlisted : Byte := 0

/-- Read one byte of a data buffer. -/
def Memory.read (m : Memory) (i : Nat) : Byte := (m.lookup i).getD Memory.unlisted

/-- Write one byte of a data buffer; nothing outside its 512 bytes is touched (40_frame_parser.md R131). -/
def Memory.write (m : Memory) (i : Nat) (b : Byte) : Memory :=
  if i < Config.dataCap then
    if b = Memory.unlisted then m.erase i else m.insert i b
  else m

/-- The canonical form of a data buffer: rising indexes below 512, no entry equal to what an unlisted index reads as. -/
def Memory.wf (m : Memory) : Bool :=
  m.risingFrom 0 && m.all fun c => decide (c.1 < Config.dataCap) && c.2 != Memory.unlisted

/-- The ten keys of the durable store: the addresses of the persisted registers (20_memory.md R63). -/
def storeKeys : List Nat := [0xC0, 0xC1, 0xCA, 0xCB, 0xCC, 0xCD, 0xCE, 0xCF, 0xD0, 0xD1]

/-- The canonical form of the durable store: rising keys, each one of the ten. -/
def Memory.storeWf (m : Memory) : Bool :=
  m.risingFrom 0 && m.all fun c => storeKeys.contains c.1

/-! ### Ports and outputs -/

/-- The state of port `p`. -/
def State.port (s : State) (p : Nat) : Port := s.ports.getD p .reset

/-- Write the state of port `p`, and of no other (10_state.md R23). -/
def State.setPort (s : State) (p : Nat) (q : Port) : State := { s with ports := s.ports.set p q }

/-- Record an output event. -/
def State.emit (s : State) (o : Output) : State := { s with outputs := s.outputs ++ [o] }

/-- `raise <Error>`: "no reply is produced ... and a diagnostic event `diag(p, <Error>)` is emitted" (00_scope.md R9,
60_exceptions.md R289). What the parser or the command then does or leaves undone stands in its own rule. -/
def State.raise (s : State) (e : ErrorKind) : State := s.emit (.diag s.hand e)

/-! ### The external collaborators (60_exceptions.md R296) -/

/-- `hw_read(a)`: one call; the value is the next answer on offer, or a free value (10_state.md R39, U5). -/
def State.hwRead (s : State) (a : Byte) : Byte × State :=
  match s.sensorAnswers with
  | v :: rest => (v, { s with sensorAnswers := rest }.emit (.hwRead a))
  | [] => (Config.sensorDraw s.draws, { s with draws := s.draws + 1 }.emit (.hwRead a))

/-- `hw_write(a, v)`. -/
def State.hwWrite (s : State) (a v : Byte) : State := s.emit (.hwWrite a v)

/-- `ver_read(a)`: `VERSION_VALUE(a)`, for `a` one of the two Version addresses (41_register_broker.md R176). -/
def State.verRead (s : State) (a : Byte) : Byte × State :=
  (if a = Config.versionLo then s.params.versionB2 else s.params.versionB3, s.emit (.verRead a))

/-- `nv_get(k)`: the stored byte, or `NONE` (20_memory.md R63). -/
def State.nvGet (s : State) (k : Byte) : Option Byte := s.store.lookup k.toNat

/-- `nv_put(k, v)` (41_register_broker.md R181). -/
def State.nvPut (s : State) (k v : Byte) : State :=
  { s with store := s.store.insert k.toNat v }.emit (.nvPut k v)

/-- `set_poll(f)`. -/
def State.setPoll (s : State) (f : Byte) : State := s.emit (.setPoll f)

/-- `stream_conflict(p)`, sampled once: the next answer on offer, or a free value (42_command_dispatch_ack.md R214, U9). -/
def State.streamConflict (s : State) : Bool × State :=
  match s.conflictAnswers with
  | v :: rest => (v, { s with conflictAnswers := rest })
  | [] => (Config.conflictDraw s.draws, { s with draws := s.draws + 1 })

end Sys2Proof.Machine
end

