-- ==== Sys2Proof/Machine/Operands.lean ====
section
/-! DEFINITION. The operand forms: register addresses, their classes (41_register_broker.md R171) and the map of the
Analysis range (10_state.md R33), register values and their two widths (20_memory.md R69), and the clamp bounds of a
coordinate (41_register_broker.md R178 to R180). -/

namespace Sys2Proof.Machine

/-- The class of a register address (41_register_broker.md R170). -/
inductive AddrClass
  | hardware
  | analysis
  | version
deriving DecidableEq, Repr

/-- `Classify(a)`: "a fixed ordered rule" (R171). -/
def classify (a : Byte) : AddrClass :=
  if Config.analysisLo ≤ a ∧ a ≤ Config.analysisHi then .analysis
  else if Config.versionLo ≤ a ∧ a ≤ Config.versionHi then .version
  else .hardware

/-- The 22 registers of the Virtual Register Table that have an address (10_state.md R33). -/
inductive Reg
  | xsplit
  | ysplit
  | max (q : Quadrant)
  | center (q : Quadrant)
  | burnX (q : Quadrant)
  | burnY (q : Quadrant)
  | burnT (q : Quadrant)
deriving DecidableEq, Repr

/-- `ANALYSIS_MAP`: the registers at 0xC0, 0xC1, ..., 0xD5 in order (R33). -/
def analysisMap : List Reg :=
  [.xsplit, .ysplit, .max .a, .center .a, .max .b, .center .b, .max .c, .center .c, .max .d, .center .d,
   .burnX .a, .burnY .a, .burnX .b, .burnY .b, .burnX .c, .burnY .c, .burnX .d, .burnY .d,
   .burnT .a, .burnT .b, .burnT .c, .burnT .d]

/-- The register that stands at an address, for an Analysis address. -/
def regAt (a : Byte) : Option Reg :=
  if Config.analysisLo ≤ a then analysisMap[a.toNat - Config.analysisLo.toNat]? else none

/-- A register value with its width: "8 or 16 bits wide" (41_register_broker.md R174). -/
inductive RegValue
  | w8 (v : Byte)
  | w16 (v : Half)
deriving DecidableEq, Repr

/-- `zext_16(v)` (00_scope.md R8). -/
def RegValue.zext16 : RegValue → Half
  | .w8 v => v.setWidth 16
  | .w16 v => v

/-- `x[a]`, the read of a VRT register (R175). -/
def Vrt.readReg (t : Vrt) : Reg → RegValue
  | .xsplit => .w8 t.xsplit
  | .ysplit => .w8 t.ysplit
  | .max q => .w16 (t.max.get q)
  | .center q => .w16 (t.center.get q)
  | .burnX q => .w8 (t.burnX.get q)
  | .burnY q => .w8 (t.burnY.get q)
  | .burnT q => .w16 (t.burnT.get q)

/-- `clamp(v, lo, hi)` (00_scope.md R8), meant for `lo <= hi`. -/
def clamp (v lo hi : Nat) : Nat := if v < lo then lo else if hi < v then hi else v

/-- The same on a byte. The bounds of the block are at most 255 (41_register_broker.md R184). -/
def clampByte (v : Byte) (lo hi : Nat) : Byte := BitVec.ofNat 8 (clamp v.toNat lo hi)

/-- `q` is on the left: A and C (R180). -/
def isLeft : Quadrant → Bool
  | .a => true
  | .b => false
  | .c => true
  | .d => false

/-- `q` is at the top: A and B (R180). -/
def isTop : Quadrant → Bool
  | .a => true
  | .b => true
  | .c => false
  | .d => false

/-- `xlo(q)` of R180. -/
def xlo (t : Vrt) (q : Quadrant) : Nat := if isLeft q then 0 else t.xsplit.toNat

/-- `xhi(q)` of R180. -/
def xhi (g : Params) (t : Vrt) (q : Quadrant) : Nat :=
  if isLeft q then t.xsplit.toNat - 1 else g.frameW - 1

/-- `ylo(q)` of R180. -/
def ylo (t : Vrt) (q : Quadrant) : Nat := if isTop q then 0 else t.ysplit.toNat

/-- `yhi(q)` of R180. -/
def yhi (g : Params) (t : Vrt) (q : Quadrant) : Nat :=
  if isTop q then t.ysplit.toNat - 1 else g.frameH - 1

/-- Store a byte, clamped, in a coordinate register (R178 to R180). The computed registers are not written: "read-only
and writes are silently ignored" (10_state.md R40). -/
def Vrt.writeReg (g : Params) (t : Vrt) (r : Reg) (v : Byte) : Vrt :=
  match r with
  | .xsplit => { t with xsplit := clampByte v 1 (g.frameW - 1) }
  | .ysplit => { t with ysplit := clampByte v 1 (g.frameH - 1) }
  | .burnX q => { t with burnX := t.burnX.set q (clampByte v (xlo t q) (xhi g t q)) }
  | .burnY q => { t with burnY := t.burnY.set q (clampByte v (ylo t q) (yhi g t q)) }
  | .max _ => t
  | .center _ => t
  | .burnT _ => t

/-- The byte a coordinate register holds; `none` for a computed register. The ten registers for which writes are
accepted are those for which it answers (10_state.md R40). -/
def Vrt.coordinate (t : Vrt) : Reg → Option Byte
  | .xsplit => some t.xsplit
  | .ysplit => some t.ysplit
  | .burnX q => some (t.burnX.get q)
  | .burnY q => some (t.burnY.get q)
  | .max _ => none
  | .center _ => none
  | .burnT _ => none

end Sys2Proof.Machine
end

