-- ==== Sys2Proof/Machine/Boot.lean ====
section
/-! DEFINITION. Hard reset and the boot load (70_reset_and_hazards.md R320 to R323). -/

namespace Sys2Proof.Machine

/-- Hard reset of a running machine (R320): the block's state as 10_state.md R45 gives it, the boot load to be made next;
the parameters, the durable store, what is on offer and the record of outputs are outside the block and stay. DESIGN
CHOICE: see notes/assumptions/18.md. Unsafe. -/
def State.hardReset (s : State) : State :=
  { s with
    ports := s.ports.map fun _ => Port.reset
    vrt := .reset s.params
    hand := 0
    bootPending := true }

/-- The splits of the boot load (R322). -/
def bootSplits (s : State) : Vrt :=
  { s.vrt with
    xsplit := clampByte ((s.nvGet 0xC0).getD s.params.defXsplit) 1 (s.params.frameW - 1)
    ysplit := clampByte ((s.nvGet 0xC1).getD s.params.defYsplit) 1 (s.params.frameH - 1) }

/-- The key of a burner coordinate, `0xCA + 2q` or `0xCA + 2q + 1` (R322). -/
def burnKey (q : Quadrant) (isY : Bool) : Byte :=
  (match q with
    | .a => 0xCA
    | .b => 0xCC
    | .c => 0xCE
    | .d => 0xD0) + (if isY then 1 else 0)

/-- The boot load of the VRT (R322): the burner bounds are those of "the `xsplit`, `ysplit` just loaded". -/
def bootVrt (s : State) : Vrt :=
  let t := bootSplits s
  { t with
    burnX := .tabulate fun q =>
      clampByte ((s.nvGet (burnKey q false)).getD (s.params.defBurnX.get q)) (xlo t q) (xhi s.params t q)
    burnY := .tabulate fun q =>
      clampByte ((s.nvGet (burnKey q true)).getD (s.params.defBurnY.get q)) (ylo t q) (yhi s.params t q) }

/-- The boot load, one step of the host (R322). It "does not write the store back". -/
def State.bootLoad (s : State) : State := { s with vrt := bootVrt s, bootPending := false }

end Sys2Proof.Machine
end

