-- ==== Sys2Proof/Machine/Broker.lean ====
section
/-! DEFINITION. The Register Address Broker (41_register_broker.md R170 to R182): reads and writes by address class. -/

namespace Sys2Proof.Machine

/-- `BrokerRead(a)` (R174 to R176): a value with its width; one collaborator call for a Version or Hardware address. -/
def brokerRead (s : State) (a : Byte) : RegValue × State :=
  match classify a with
  | .analysis =>
    match regAt a with
    | some r => (s.vrt.readReg r, s)
    | none => (.w16 0, s)
  | .version => (.w8 (s.verRead a).1, (s.verRead a).2)
  | .hardware => (.w8 (s.hwRead a).1, (s.hwRead a).2)

/-- The result of a write (R170). -/
inductive WriteResult
  | ok
  | ignored
deriving DecidableEq, Repr

/-- A write to a VRT register (R177 to R182): a coordinate is clamped, stored and persisted under its address (R181);
a computed register ignores it (R182). -/
def writeAnalysis (s : State) (a : Byte) (r : Reg) (v : Byte) : WriteResult × State :=
  let t := Vrt.writeReg s.params s.vrt r v
  match Vrt.coordinate t r with
  | some stored => (.ok, { s with vrt := t }.nvPut a stored)
  | none => (.ignored, s)

/-- `BrokerWrite(a, v)` (R177). -/
def brokerWrite (s : State) (a v : Byte) : WriteResult × State :=
  match classify a with
  | .hardware => (.ok, s.hwWrite a v)
  | .version => (.ignored, s)
  | .analysis =>
    match regAt a with
    | some r => writeAnalysis s a r v
    | none => (.ignored, s)

end Sys2Proof.Machine
end

