-- ==== Sys2Proof/Machine/Ack.lean ====
section
/-! DEFINITION. The ACK encoder (42_command_dispatch_ack.md R204) and the value mux (R208). -/

namespace Sys2Proof.Machine

/-- `LEN || CMD || payload` of a reply (30_encoding.md R101). -/
def ackBody (code : Bytes4) (payload : List Byte) : List Byte :=
  hexText4 (BitVec.ofNat 16 (8 + payload.length)) ++ code.toList ++ payload

/-- `Ack(CMD, payload)` of 30_encoding.md R116: filler, `'#'`, body, checksum by the external function. -/
def ackFrame (filler : Byte) (code : Bytes4) (payload : List Byte) : List Byte :=
  [filler, filler, filler, Config.start] ++ ackBody code payload
    ++ hexText4 (Config.ackChecksum (ackBody code payload))

/-- `BuildAck(p, payload)` (R204) and `emit_ack(p, ack[p])` (R218), for the port in hand. DEDUCED: the echoed command
code is the instruction's own, which at every dispatch is `cmd[p]`; see notes/assumptions/9.md. Safe. -/
def State.buildAck (s : State) (code : Bytes4) (payload : List Byte) : State :=
  let bytes := ackFrame s.params.ackFiller code payload
  let q := { s.port s.hand with ack := bytes, ackLen := BitVec.ofNat 11 (16 + payload.length) }
  (s.setPort s.hand q).emit (.emitAck s.hand bytes)

/-- The text of a read value, by the class of its address (R208): 4 characters for Analysis, 2 otherwise. -/
def valueChars (c : AddrClass) (v : RegValue) : List Byte :=
  match c with
  | .analysis => hexText4 v.zext16
  | .version => hexText2 (v.zext16.setWidth 8)
  | .hardware => hexText2 (v.zext16.setWidth 8)

/-- `ValueText(a)` (R208): one `BrokerRead`. -/
def valueText (s : State) (a : Byte) : List Byte × State :=
  (valueChars (classify a) (brokerRead s a).1, (brokerRead s a).2)

/-- The payload of `RRSE` (R211, R213): for each address in order, `HEX2(a_j) || ValueText(a_j)`. -/
def readSequence (s : State) : List Byte → List Byte × State
  | [] => ([], s)
  | a :: rest =>
    let v := valueText s a
    let tail := readSequence v.2 rest
    (hexText2 a ++ v.1 ++ tail.1, tail.2)

end Sys2Proof.Machine
end

