-- ==== Sys2Proof/Machine/Commands.lean ====
section
/-! DEFINITION. The meaning of each command, for the port in hand (42_command_dispatch_ack.md R202 to R220). A command
runs inside the `Feed` step that completed its frame and always leads to a next state. -/

namespace Sys2Proof.Machine

/-- `WREG` (R205 to R207). The reply does not depend on the outcome of the write (R206). -/
def execWreg (addr value : Operand) (s : State) : Host.Outcome State Fault Refusal :=
  match addr, value with
  | .ok a, .ok v => .next ((brokerWrite s a v).2.buildAck codeWreg [])
  | _, _ => .next ((s.raise .invalidCommandData).buildAck codeWreg [])

/-- `RREG` (R209, R210). -/
def execRreg (addr : Operand) (s : State) : Host.Outcome State Fault Refusal :=
  match addr with
  | .ok a => .next ((valueText s a).2.buildAck codeRreg (valueText s a).1)
  | _ => .next (s.raise .invalidCommandData)

/-- The addresses of an `RRSE`, if every one is valid: "the pairs are all checked before any read is made" (R212). -/
def validAddrs : List Operand → Option (List Byte)
  | [] => some []
  | .ok a :: rest => (validAddrs rest).map (a :: ·)
  | _ :: _ => none

/-- `RRSE` (R211 to R213). -/
def execRrse (addrs : List Operand) (s : State) : Host.Outcome State Fault Refusal :=
  match validAddrs addrs with
  | some l => .next ((readSequence s l).2.buildAck codeRrse (readSequence s l).1)
  | none => .next (s.raise .invalidCommandData)

/-- `min(f, 25)` (R215). -/
def clampFreq (f : Byte) : Byte := if Config.pollMax < f then Config.pollMax else f

/-- `POLL` when no streaming session conflicts (R214, R215). -/
def pollAllowed (freq : Operand) (s : State) : State :=
  match freq with
  | .ok f => (s.setPoll (clampFreq f)).buildAck codePoll []
  | _ => (s.raise .invalidCommandData).buildAck codePoll []

/-- `POLL` (R214, R215): the streaming predicate is sampled once, before the data is looked at (R220). -/
def execPoll (freq : Operand) (s : State) : Host.Outcome State Fault Refusal :=
  .next (if s.streamConflict.1 then s.streamConflict.2.raise .streamingConflict
    else pollAllowed freq s.streamConflict.2)

/-- An unknown command (R202): `UnknownCommand`, and nothing else. -/
def execUnknown (_cmd : Bytes4) (s : State) : Host.Outcome State Fault Refusal :=
  .next (s.raise .unknownCommand)

end Sys2Proof.Machine
end

