-- ==== Sys2Proof/Machine/Dispatch.lean ====
section
/-! DEFINITION. `Dispatch(p)` by command (42_command_dispatch_ack.md R200): one arm for each constructor of `Instr`. -/

namespace Sys2Proof.Machine

def exec (i : Instr) (s : State) : Host.Outcome State Fault Refusal :=
  match i with
  | .wreg addr value => Sys2Proof.Machine.execWreg addr value s
  | .rreg addr => Sys2Proof.Machine.execRreg addr s
  | .rrse addrs => Sys2Proof.Machine.execRrse addrs s
  | .poll freq => Sys2Proof.Machine.execPoll freq s
  | .unknown cmd => Sys2Proof.Machine.execUnknown cmd s

end Sys2Proof.Machine
end

