-- ==== Sys2Proof/Machine/Flags.lean ====
section
/-! DEFINITION. The block has no stored flags (10_state.md R27): its condition outputs are the results of `Feed` steps.
Here stand their suggested encodings and those of the other enumerations (R24, R27, 41_register_broker.md R171), "not
observable" (92_eei_decisions.md D11), and the error labels (60_exceptions.md R280). -/

namespace Sys2Proof.Machine

/-- The 2-bit encoding of a parser state (10_state.md R24). -/
def ParserState.code : ParserState → BitVec 2
  | .seekStart => 0
  | .readLength => 1
  | .readBody => 2
  | .readChecksum => 3

/-- The 2-bit encoding of a result (10_state.md R27). -/
def FeedResult.code : FeedResult → BitVec 2
  | .cont => 0
  | .completeOk => 1
  | .completeFail => 2
  | .reset => 3

/-- The 2-bit encoding of an address class (41_register_broker.md R171). -/
def AddrClass.code : AddrClass → BitVec 2
  | .hardware => 0
  | .analysis => 1
  | .version => 2

/-- The number of an error label, E1 to E6 (60_exceptions.md R280). -/
def ErrorKind.label : ErrorKind → Nat
  | .framingError => 1
  | .lengthRejected => 2
  | .checksumMismatch => 3
  | .unknownCommand => 4
  | .invalidCommandData => 5
  | .streamingConflict => 6

/-- The result of the fourth checksum byte (40_frame_parser.md R138): "A bypassed check and a matched check give the
same result". -/
def verdict (ok : Bool) : FeedResult := if ok then .completeOk else .completeFail

end Sys2Proof.Machine
end

