-- ==== Sys2Proof/Machine/Parser.lean ====
section
/-! DEFINITION. The frame parser of one port (40_frame_parser.md R130 to R138): one definition for each parser state,
`feed` over them, and re-init (10_state.md R47). The dispatch of a completed frame stands in Machine/Agents.lean. -/

namespace Sys2Proof.Machine

/-- `ReInit(p)` (10_state.md R47): every frame field, `acc` and `cnt` to zero. -/
def Port.reInit (q : Port) : Port :=
  { q with
    cnt := 0
    lenField := .zero
    declaredLength := 0
    cmd := .zero
    data := []
    dataLen := 0
    csField := .zero
    acc := 0 }

/-- The data bytes `data[p][0 .. dataLen[p]-1]` (10_state.md R30). -/
def Port.dataBytes (q : Port) : List Byte := (List.range q.dataLen.toNat).map q.data.read

/-- `SeekStart` (R132). -/
def feedSeekStart (q : Port) (b : Byte) : Port × FeedResult :=
  if b = Config.start then ({ q.reInit with ps := .readLength }, .cont) else (q, .cont)

/-- `ReadLength` (R133 for the first three bytes, R134 for the fourth). -/
def feedReadLength (q : Port) (b : Byte) : Port × FeedResult :=
  if q.cnt.toNat < 3 then
    ({ q with lenField := q.lenField.set q.cnt.toNat b, acc := addByte q.acc b, cnt := q.cnt + 1 }, .cont)
  else
    let len := q.lenField.set 3 b
    let q1 := { q with lenField := len, acc := addByte q.acc b, declaredLength := lenValue len, cnt := 0 }
    if lengthRejected (lenValue len) then ({ q1 with ps := .seekStart }, .reset)
    else ({ q1 with ps := .readBody }, .cont)

/-- The store of one body byte (R135). -/
def storeBody (q : Port) (b : Byte) : Port :=
  let q1 := { q with acc := addByte q.acc b, cnt := q.cnt + 1 }
  if q.cnt.toNat < 4 then { q1 with cmd := q.cmd.set q.cnt.toNat b }
  else { q1 with data := q.data.write (q.cnt.toNat - 4) b, dataLen := q.cnt - 3 }

/-- `ReadBody`: the store of R135, then the transition of R136. -/
def feedReadBody (q : Port) (b : Byte) : Port × FeedResult :=
  let q1 := storeBody q b
  if q1.cnt.toNat = bodyLimit q1.declaredLength then ({ q1 with ps := .readChecksum, cnt := 0 }, .cont)
  else (q1, .cont)

/-- `ReadChecksum` (R137), without the dispatch. -/
def feedReadChecksum (q : Port) (b : Byte) : Port × FeedResult :=
  if q.cnt.toNat < 3 then
    ({ q with csField := q.csField.set q.cnt.toNat b, cnt := q.cnt + 1 }, .cont)
  else
    let cs := q.csField.set 3 b
    ({ q with csField := cs, cnt := 0, ps := .seekStart }, verdict (csumVerify q.acc cs))

/-- `Feed(p, b)` on the state of its port (R131), without the dispatch. -/
def feed (q : Port) (b : Byte) : Port × FeedResult :=
  match q.ps with
  | .seekStart => feedSeekStart q b
  | .readLength => feedReadLength q b
  | .readBody => feedReadBody q b
  | .readChecksum => feedReadChecksum q b

/-- Feed a byte string: the port after it and the results of its steps in order (R145, R151). -/
def feedAll (q : Port) : List Byte → Port × List FeedResult
  | [] => (q, [])
  | b :: w =>
    let r := feed q b
    let rest := feedAll r.1 w
    (rest.1, r.2 :: rest.2)

/-- The port with every byte of a frame but the last already fed, from `SeekStart`: what `State.withFetchWord`
stages. -/
def Port.staged (q : Port) (w : List Byte) : Port :=
  (feedAll { q with ps := .seekStart, cnt := 0 } w.dropLast).1

end Sys2Proof.Machine
end

