-- ==== Sys2Proof/Machine/Reducer.lean ====
section
/-! DEFINITION. The quadrant/burner thermal-pixel reducer (43_quadrant_reducer.md R250 to R263): one atomic step of the
analysis agent. Its working state is local to the step (10_state.md R42; notes/assumptions/20.md). -/

namespace Sys2Proof.Machine

/-- `pix(x, y)` of a frame of width `w` in raster order (20_memory.md R62). Outside the frame it is 0, which no step
reads (41_register_broker.md R183; notes/assumptions/17.md). -/
def pix (w : Nat) (frame : List Half) (x y : Nat) : Half := frame.getD (y * w + x) 0

/-- `Quad(x, y)` (R252). -/
def quadOf (xs ys x y : Nat) : Quadrant :=
  if x < xs then (if y < ys then .a else .c) else (if y < ys then .b else .d)

/-- The pixel coordinates `(x, y)` of a frame in raster order. -/
def coords (w h : Nat) : List (Nat × Nat) :=
  (List.range h).flatMap fun y => (List.range w).map fun x => (x, y)

/-- The greater of two pixels, "compared as unsigned 16-bit numbers" (R253). -/
def maxHalf (a b : Half) : Half := if a < b then b else a

/-- `rmax[q]` (R253): the running maximum over the quadrant's pixels, started at 0. -/
def quadMax (w h : Nat) (frame : List Half) (xs ys : Nat) (q : Quadrant) : Half :=
  (((coords w h).filter fun c => quadOf xs ys c.1 c.2 = q).map fun c => pix w frame c.1 c.2).foldl maxHalf 0

/-- The x coordinate of `Centre(q, xs, ys)` (R254). -/
def centreX (w xs : Nat) (q : Quadrant) : Nat :=
  min ((if isLeft q then 0 + xs else xs + w) / 2) (w - 1)

/-- The y coordinate of `Centre(q, xs, ys)` (R254). -/
def centreY (h ys : Nat) (q : Quadrant) : Nat :=
  min ((if isTop q then 0 + ys else ys + h) / 2) (h - 1)

/-- The commit (R259): the twelve results overwrite `max`, `center` and `bt`; nothing else is written (R260). -/
def Vrt.commit (g : Params) (t : Vrt) (frame : List Half) : Vrt :=
  let xs := t.xsplit.toNat
  let ys := t.ysplit.toNat
  { t with
    max := .tabulate fun q => quadMax g.frameW g.frameH frame xs ys q
    center := .tabulate fun q => pix g.frameW frame (centreX g.frameW xs q) (centreY g.frameH ys q)
    burnT := .tabulate fun q => pix g.frameW frame (t.burnX.get q).toNat (t.burnY.get q).toNat }

/-- One of the twelve results (R262). -/
def Vrt.result (t : Vrt) (r : ResultSel) : Half :=
  match r.kind with
  | .max => t.max.get r.quad
  | .center => t.center.get r.quad
  | .burnT => t.burnT.get r.quad

/-- `RECOMPUTE(frame)` (R251): commit, then one broadcast. A frame of another size is refused (R261, U11). -/
def recompute (frame : List Half) (s : State) : Host.Outcome State Fault Refusal :=
  if frame.length = s.params.frameW * s.params.frameH then
    let t := Vrt.commit s.params s.vrt frame
    .next ({ s with vrt := t }.emit (.bcast (s.params.bcastSelect.map (Vrt.result t))))
  else .refused .frameSize

end Sys2Proof.Machine
end

