-- ==== Sys2Proof/Machine/Agents.lean ====
section
/-! DEFINITION. The steps of the agents (10_state.md R21): a byte fed to a port with the dispatch it may trigger, a
session reset, a recompute, the host's chunk wrapper and hard reset. -/

namespace Sys2Proof.Machine

/-- `Dispatch(p)` of the port in hand (42_command_dispatch_ack.md R200): its accepted frame is decoded and run. -/
def dispatch (s : State) : Host.Outcome State Fault Refusal :=
  let q := s.port s.hand
  exec (decodeBody q.cmd q.dataBytes) s

/-- Record the result of the `Feed` step of the port in hand after what the step did. -/
def withResult (r : FeedResult) : Host.Outcome State Fault Refusal → Host.Outcome State Fault Refusal
  | .next s => .next (s.emit (.result s.hand r))
  | .fault f => .fault f
  | .refused f => .refused f

/-- What a `Feed` step does beyond its port's parser (40_frame_parser.md R134, R137, R139, R140). -/
def afterFeed (r : FeedResult) (s : State) : Host.Outcome State Fault Refusal :=
  match r with
  | .cont => .next s
  | .reset => .next (s.raise .lengthRejected)
  | .completeFail => .next (s.raise .checksumMismatch)
  | .completeOk => dispatch s

/-- `Feed(p, b)` (40_frame_parser.md R131), one atomic step (20_memory.md R70). -/
def feedPort (p : Nat) (b : Byte) (s : State) : Host.Outcome State Fault Refusal :=
  if p < s.ports.length then
    let r := feed (s.port p) b
    withResult r.2 (afterFeed r.2 { s.setPort p r.1 with hand := p })
  else .fault .noSuchPort

/-- `SRESET(p)` (60_exceptions.md R290): no reply, no result code. -/
def sessionReset (p : Nat) (s : State) : Host.Outcome State Fault Refusal :=
  if p < s.ports.length then
    .next (s.setPort p { (s.port p).reInit with ps := .seekStart })
  else .fault .noSuchPort

/-- `FeedChunk(p, s)` (40_frame_parser.md R144): the first 524 bytes are put on offer, each "a step of its own"; the
rest are dropped. DESIGN CHOICE: see notes/assumptions/19.md. Safe. -/
def cutChunk (p : Nat) (bytes : List Byte) (s : State) : Host.Outcome State Fault Refusal :=
  .next { s with inputs := (bytes.take Config.chunkCap).map (Event.byte p) ++ s.inputs }

/-- One event, already taken off the list of events on offer. -/
def takeEvent (e : Event) (s : State) : Host.Outcome State Fault Refusal :=
  match e with
  | .byte p b => feedPort p b s
  | .chunk p bytes => cutChunk p bytes s
  | .sreset p => sessionReset p s
  | .capture frame => recompute frame s
  | .hardReset => .next s.hardReset

/-- The next event on offer, if there is one: "the block is idle whenever no byte or frame is offered"
(60_exceptions.md R304). -/
def takeNext (s : State) : Host.Outcome State Fault Refusal :=
  match s.inputs with
  | [] => .next s
  | e :: rest => takeEvent e { s with inputs := rest }

/-- Put a frame in front of a machine so that the next step completes and runs it: the boot load made if it is
pending, port 0 with every byte of the frame but the last fed, the last byte first on offer. -/
def State.staged (s : State) (w : List Byte) : State :=
  let s1 := if s.bootPending then s.bootLoad else s
  { s1.setPort 0 ((s1.port 0).staged w) with
    inputs := (w.drop (w.length - 1)).map (Event.byte 0) ++ s1.inputs }

end Sys2Proof.Machine
end

