-- ==== Sys2Proof/Machine/Step.lean ====
section
/-! DEFINITION. One step of the machine: the boot load if it is pending (70_reset_and_hazards.md R322, R323), else the
next event on offer (60_exceptions.md R291, R292); and how a word of the opcode table is put in front of it. -/

namespace Sys2Proof.Machine

/-- One atomic step (20_memory.md R70). -/
def step (s : State) : Host.Outcome State Fault Refusal :=
  if s.bootPending then .next s.bootLoad else takeNext s

/-- `s` with the frame of a table word on port 0, all but its last byte fed, so that the next step runs it. See
notes/assumptions/14.md. -/
def State.withFetchWord (s : State) (nbits w : Nat) : State := s.staged (tableFrame nbits w)

end Sys2Proof.Machine
end

