-- ==== Sys2Proof/Safety.lean ====
section
/-! DEFINITION. What counts as a legal state, in the terms the statements use: the invariants the spec gives for a port
(10_state.md R25, R30, R100 of 30_encoding.md, 40_frame_parser.md R146), for the coordinates (10_state.md R36), and the
canonical forms of the byte cells. -/

namespace Sys2Proof.Machine

/-- Between steps, `cnt[p]` is at most 3 in `ReadLength` and `ReadChecksum`, at most 515 in `ReadBody`, and 0 in
`SeekStart`; `dataLen[p]` is at most 512 (40_frame_parser.md R146 (c)). -/
def Port.countersOk (q : Port) : Prop :=
  q.dataLen.toNat ≤ 512 ∧
    match q.ps with
    | .seekStart => q.cnt = 0
    | .readLength => q.cnt.toNat ≤ 3
    | .readBody => q.cnt.toNat ≤ 515
    | .readChecksum => q.cnt.toNat ≤ 3

/-- What holds of the frame in hand while it is received: in `ReadLength` no data byte is stored; in `ReadBody` the
declared length was accepted, the body limit is not reached, and the data bytes are the body bytes after the fourth
(40_frame_parser.md R134 to R136). -/
def Port.phaseOk (q : Port) : Prop :=
  match q.ps with
  | .seekStart => True
  | .readLength => q.dataLen = 0
  | .readBody =>
    lengthRejected q.declaredLength = false ∧ q.cnt.toNat < bodyLimit q.declaredLength
      ∧ q.dataLen.toNat = q.cnt.toNat - 4
  | .readChecksum => True

/-- The data buffer is in canonical form and lists nothing at `dataLen` and above, where every byte is zero
(10_state.md R30); `ackLen` is the byte count of `ack` (10_state.md R41). -/
def Port.buffersOk (q : Port) : Prop :=
  q.data.wf = true ∧ (∀ i, q.dataLen.toNat ≤ i → q.data.read i = 0) ∧ q.ackLen.toNat = q.ack.length

/-- A legal port state. -/
structure Port.Ok (q : Port) : Prop where
  counters : q.countersOk
  phase : q.phaseOk
  buffers : q.buffersOk

/-- The field positions not yet received are zero since the last re-init (10_state.md R47): what makes the accumulator
the sum of the fields as they stand. -/
def Port.unreachedZero (q : Port) : Prop :=
  match q.ps with
  | .seekStart => True
  | .readLength =>
    (∀ i, q.cnt.toNat ≤ i → i < 4 → q.lenField.toList[i]? = some 0) ∧ q.cmd = .zero ∧ q.data = []
  | .readBody => ∀ i, q.cnt.toNat ≤ i → i < 4 → q.cmd.toList[i]? = some 0
  | .readChecksum => True

/-- `acc[p]` is the sum of the `LEN`, `CMD` and `DATA` bytes stored so far (30_encoding.md R100). -/
def Port.sumOk (q : Port) : Prop :=
  q.acc = byteSum (q.lenField.toList ++ q.cmd.toList ++ q.dataBytes)

/-- The value constraints of the VRT coordinates (10_state.md R36). -/
def State.coordsOk (s : State) : Prop :=
  (1 ≤ s.vrt.xsplit.toNat ∧ s.vrt.xsplit.toNat ≤ s.params.frameW - 1) ∧
  (1 ≤ s.vrt.ysplit.toNat ∧ s.vrt.ysplit.toNat ≤ s.params.frameH - 1) ∧
  ∀ q, (s.vrt.burnX.get q).toNat ≤ s.params.frameW - 1 ∧ (s.vrt.burnY.get q).toNat ≤ s.params.frameH - 1

/-- The invariant of the machine: at least one port (00_scope.md R7), every port legal, the durable store in canonical
form, and the coordinates in range once the boot load is made (10_state.md R36). -/
structure State.Inv (s : State) : Prop where
  ports : 1 ≤ s.ports.length
  port : ∀ q ∈ s.ports, q.Ok
  store : s.store.storeWf = true
  coords : s.bootPending = false → s.coordsOk

/-- Two states differ at most in what a read may change: the sensor's answers on offer, the draws and the outputs
(41_register_broker.md R174: a read "never changes block state"). -/
structure SameButReads (s t : State) : Prop where
  params : t.params = s.params
  ports : t.ports = s.ports
  vrt : t.vrt = s.vrt
  store : t.store = s.store
  hand : t.hand = s.hand
  bootPending : t.bootPending = s.bootPending
  inputs : t.inputs = s.inputs
  conflictAnswers : t.conflictAnswers = s.conflictAnswers

/-- The state after these outputs and then the reply `Ack(code, payload)` of the port in hand, and nothing else
(42_command_dispatch_ack.md R204). -/
def State.replied (s : State) (before : List Output) (code : Bytes4) (payload : List Byte) : State :=
  { s with
    ports := s.ports.set s.hand { s.port s.hand with
      ack := ackFrame s.params.ackFiller code payload
      ackLen := BitVec.ofNat 11 (16 + payload.length) }
    outputs := s.outputs ++ before ++ [.emitAck s.hand (ackFrame s.params.ackFiller code payload)] }

/-- The state after these outputs and nothing else. -/
def State.outputting (s : State) (o : List Output) : State := { s with outputs := s.outputs ++ o }

/-- The collaborator calls of one register read (41_register_broker.md R174). -/
def readCalls (a : Byte) : List Output :=
  match classify a with
  | .analysis => []
  | .version => [.verRead a]
  | .hardware => [.hwRead a]

/-- The characters one address adds to an `RRSE` payload: "6 if Analysis else 4" (30_encoding.md R114). -/
def seqChars (a : Byte) : Nat := if classify a = .analysis then 6 else 4

/-- The bytes the sensor answered, of an address list and the values read for it. -/
def sensorValues : List Byte → List RegValue → List Byte
  | a :: l, .w8 v :: vals => if classify a = .hardware then v :: sensorValues l vals else sensorValues l vals
  | _ :: l, .w16 _ :: vals => sensorValues l vals
  | _, _ => []

/-- The outcome with its next state changed. -/
def mapNext (f : State → State) : Host.Outcome State Fault Refusal → Host.Outcome State Fault Refusal
  | .next s => .next (f s)
  | .fault r => .fault r
  | .refused r => .refused r

/-- The one-byte edges of the parser's state graph (40_frame_parser.md R148). -/
def graphEdges : List (ParserState × ParserState) :=
  [(.seekStart, .seekStart), (.seekStart, .readLength), (.readLength, .readLength), (.readLength, .readBody),
   (.readLength, .seekStart), (.readBody, .readBody), (.readBody, .readChecksum), (.readChecksum, .readChecksum),
   (.readChecksum, .seekStart)]

/-- An event the environment may offer (70_reset_and_hazards.md R339): its port exists, its frame has the size. -/
def Event.legal (s : State) : Event → Prop
  | .byte p _ => p < s.ports.length
  | .chunk p _ => p < s.ports.length
  | .sreset p => p < s.ports.length
  | .capture frame => frame.length = s.params.frameW * s.params.frameH
  | .hardReset => True

/-- `(x, y)` lies in quadrant `q` of the current partition, inside the frame (43_quadrant_reducer.md R252). -/
def State.inQuadrant (s : State) (q : Quadrant) (x y : Nat) : Prop :=
  x < s.params.frameW ∧ y < s.params.frameH ∧ quadOf s.vrt.xsplit.toNat s.vrt.ysplit.toNat x y = q

end Sys2Proof.Machine
end

