-- ==== Sys2Proof/Certificates/Slice0/Obligations.lean ====
section
/-! DEFINITION. The statements for the provers: what the commands, the parser, the broker, the reducer and reset do, by
the rules of spec/. Where a statement rests on a decision of the spec's own (92_eei_decisions.md) its docstring names it. -/

open Sys2Proof Sys2Proof.Machine

/-! ### Encodings -/

/-- Words written out from 30_encoding.md R92, R104 to R109 decode to the commands they stand for: the frames V-D1,
V-D8, V-D14, V-D19 and V-D24 of 95_test_vectors.md, and the four codes of the opcode table. -/
def Obligations.SpecFramesDecodeToTheirCommands : Prop :=
  decode [0x23, 0x30, 0x30, 0x30, 0x43, 0x57, 0x52, 0x45, 0x47, 0x43, 0x30, 0x32, 0x38, 0x30, 0x32, 0x45, 0x35]
      = .ok (.wreg (.ok 0xC0) (.ok 0x28), []) ∧
  decode [0x23, 0x30, 0x30, 0x30, 0x41, 0x52, 0x52, 0x45, 0x47, 0x43, 0x32, 0x30, 0x32, 0x37, 0x36]
      = .ok (.rreg (.ok 0xC2), []) ∧
  decode [0x23, 0x30, 0x30, 0x30, 0x45, 0x52, 0x52, 0x53, 0x45, 0x43, 0x32, 0x42, 0x32, 0x31, 0x30, 0x30, 0x33, 0x35,
      0x42] = .ok (.rrse [.ok 0xC2, .ok 0xB2, .ok 0x10], []) ∧
  decode [0x23, 0x30, 0x30, 0x30, 0x41, 0x50, 0x4F, 0x4C, 0x4C, 0x31, 0x39, 0x30, 0x32, 0x37, 0x32]
      = .ok (.poll (.ok 25), []) ∧
  decode [0x23, 0x30, 0x30, 0x30, 0x38, 0x41, 0x42, 0x43, 0x44, 0x30, 0x31, 0x44, 0x32]
      = .ok (.unknown ⟨0x41, 0x42, 0x43, 0x44⟩, []) ∧
  (∃ a v, decodeTableWord 32 0x57524547 = some (.wreg a v)) ∧
  (∃ a, decodeTableWord 32 0x52524547 = some (.rreg a)) ∧
  (∃ l, decodeTableWord 32 0x52525345 = some (.rrse l)) ∧
  (∃ f, decodeTableWord 32 0x504F4C4C = some (.poll f))

/-- Decoding the encoding of a well-formed command gives it back, whatever bytes follow: every operand at every value, in
every form the syntax has. Rests on D5 and D15 (hex digits) and log 13 (how a malformed operand is written). -/
def Obligations.DecodeOfEncodeIsIdentity : Prop :=
  ∀ (i : Instr) (rest : List Byte), i.wellFormed = true → decode (encode i ++ rest) = .ok (i, rest)

/-- A body of at most 512 data bytes always decodes to a well-formed command, whose code is the one received. Rests on
D13, D14 (operands at fixed offsets, a trailing odd byte ignored). -/
def Obligations.DecodedBodiesAreWellFormed : Prop :=
  ∀ (cmd : Bytes4) (data : List Byte),
    (decodeBody cmd data).code = cmd ∧ (data.length ≤ 512 → (decodeBody cmd data).wellFormed = true)

/-- R110: any four bytes other than the four codes are an unknown command, rejected with no reply; and none of the four
codes is unknown, whatever its data. -/
def Obligations.UnknownIsEveryOtherCode : Prop :=
  ∀ (cmd : Bytes4) (data : List Byte) (s : State),
    (cmd ∉ [codeWreg, codeRreg, codeRrse, codePoll] →
      decodeBody cmd data = .unknown cmd ∧
      exec (decodeBody cmd data) s = .next (s.outputting [.diag s.hand .unknownCommand])) ∧
    (cmd ∈ [codeWreg, codeRreg, codeRrse, codePoll] → ∀ c, decodeBody cmd data ≠ .unknown c)

/-! ### The parser -/

/-- `SeekStart`: a byte other than `'#'` changes nothing, and `'#'` zeroes the frame fields and enters `ReadLength`. Rests
on D3 (the marker is not summed) and D4 (re-init runs on the marker). -/
def Obligations.SeekStartWaitsForTheMarker : Prop :=
  ∀ (q : Port) (b : Byte), q.ps = .seekStart →
    (b ≠ 0x23 → feed q b = (q, .cont)) ∧
    (b = 0x23 → feed q b =
      ({ q with ps := .readLength, cnt := 0, lenField := .zero, declaredLength := 0, cmd := .zero, data := [],
                dataLen := 0, csField := .zero, acc := 0 }, .cont))

/-- R133: each of the first three length bytes is stored and summed, unchecked. -/
def Obligations.LengthBytesStoredAndSummed : Prop :=
  ∀ (q : Port) (b : Byte), q.ps = .readLength → q.cnt.toNat < 3 →
    feed q b =
      ({ q with lenField := q.lenField.set q.cnt.toNat b, acc := q.acc + b.setWidth 32, cnt := q.cnt + 1 }, .cont)

/-- R134: the fourth length byte parses the length; below 8 or the sentinel the frame is given up with a `LengthRejected`
diagnostic, the result `Reset` and no reply, else the body is read. Any character that is no hex digit gives the sentinel,
and a rejection happens on a fourth length byte and at no other time. -/
def Obligations.FourthLengthByteDecides : Prop :=
  ∀ (s : State) (p : Nat) (b : Byte) (rest : List Event),
    s.bootPending = false → s.inputs = .byte p b :: rest → p < s.ports.length →
    (s.port p).ps = .readLength → (s.port p).cnt = 3 →
    let q := s.port p
    let len := lenValue (q.lenField.set 3 b)
    let q1 := { q with lenField := q.lenField.set 3 b, acc := q.acc + b.setWidth 32, declaredLength := len, cnt := 0 }
    ((len.toNat < 8 ∨ len = 0xFFFFFFFF) →
      step s = .next { s with
        inputs := rest, hand := p, ports := s.ports.set p { q1 with ps := .seekStart }
        outputs := s.outputs ++ [.diag p .lengthRejected, .result p .reset] }) ∧
    (¬(len.toNat < 8 ∨ len = 0xFFFFFFFF) →
      step s = .next { s with
        inputs := rest, hand := p, ports := s.ports.set p { q1 with ps := .readBody }
        outputs := s.outputs ++ [.result p .cont] }) ∧
    ((∃ c ∈ (q.lenField.set 3 b).toList, hexval c = none) → len = 0xFFFFFFFF) ∧
    ∀ (x : Port) (c : Byte), (feed x c).2 = .reset → x.ps = .readLength ∧ 3 ≤ x.cnt.toNat

/-- R135, R136: a body byte is summed and stored, the first four in the command code and the others in the data, and the
body ends when `cnt` reaches `min(declaredLength - 4, 516)`. The other fields, the reply last built among them, stay. -/
def Obligations.BodyBytesStoredUpToTheLimit : Prop :=
  ∀ (q : Port) (b : Byte), q.ps = .readBody → q.data.wf = true →
    let q1 := (feed q b).1
    (feed q b).2 = .cont ∧ q1.acc = q.acc + b.setWidth 32 ∧
    q1.lenField = q.lenField ∧ q1.declaredLength = q.declaredLength ∧ q1.csField = q.csField ∧
    q1.ack = q.ack ∧ q1.ackLen = q.ackLen ∧
    (q.cnt.toNat < 4 → q1.cmd = q.cmd.set q.cnt.toNat b ∧ q1.data = q.data ∧ q1.dataLen = q.dataLen) ∧
    (4 ≤ q.cnt.toNat → q1.cmd = q.cmd ∧ q1.dataLen = q.cnt - 3 ∧
      (q.cnt.toNat < 516 → q1.data.read (q.cnt.toNat - 4) = b) ∧
      ∀ i, i ≠ q.cnt.toNat - 4 → q1.data.read i = q.data.read i) ∧
    ((q.cnt + 1).toNat = min (q.declaredLength.toNat - 4) 516 → q1.ps = .readChecksum ∧ q1.cnt = 0) ∧
    ((q.cnt + 1).toNat ≠ min (q.declaredLength.toNat - 4) 516 → q1.ps = .readBody ∧ q1.cnt = q.cnt + 1)

/-- R138: the result of a `Feed` step by the parser state before it and the byte: `Continue` everywhere but on the fourth
byte of a length that is rejected and on the fourth byte of a checksum, where a bypass and a match give the same. -/
def Obligations.FeedResultByState : Prop :=
  ∀ (q : Port) (b : Byte),
    (q.ps = .seekStart → (feed q b).2 = .cont) ∧
    (q.ps = .readLength → q.cnt.toNat < 3 → (feed q b).2 = .cont) ∧
    (q.ps = .readLength → q.cnt = 3 →
      (feed q b).2 = if lengthRejected (lenValue (q.lenField.set 3 b)) then .reset else .cont) ∧
    (q.ps = .readBody → (feed q b).2 = .cont) ∧
    (q.ps = .readChecksum → q.cnt.toNat < 3 → (feed q b).2 = .cont) ∧
    (q.ps = .readChecksum → q.cnt = 3 →
      (feed q b).2 = if csumVerify q.acc (q.csField.set 3 b) then .completeOk else .completeFail)

/-- R283: a fourth checksum byte that does not verify returns the port to `SeekStart` with its fields populated, and there
is no dispatch and no reply, only the diagnostic. -/
def Obligations.ChecksumMismatchIsNotDispatched : Prop :=
  ∀ (s : State) (p : Nat) (b : Byte) (rest : List Event),
    s.bootPending = false → s.inputs = .byte p b :: rest → p < s.ports.length →
    (s.port p).ps = .readChecksum → (s.port p).cnt = 3 →
    csumVerify (s.port p).acc ((s.port p).csField.set 3 b) = false →
    step s = .next { s with
      inputs := rest, hand := p
      ports := s.ports.set p { s.port p with csField := (s.port p).csField.set 3 b, ps := .seekStart, cnt := 0 }
      outputs := s.outputs ++ [.diag p .checksumMismatch, .result p .completeFail] }

/-- A step runs the decoded command: when the fourth checksum byte verifies, the step is `exec` of the command the
frame's code and data decode to, on the port returned to `SeekStart`, with the result `FrameComplete(ok)` recorded after
it. Rests on D10 (dispatch inside the completing step). -/
def Obligations.AcceptedFrameStepIsExecOfItsCommand : Prop :=
  ∀ (s : State) (p : Nat) (b : Byte) (rest : List Event),
    s.bootPending = false → s.inputs = .byte p b :: rest → p < s.ports.length →
    (s.port p).ps = .readChecksum → (s.port p).cnt = 3 →
    csumVerify (s.port p).acc ((s.port p).csField.set 3 b) = true →
    ∃ t, exec (decodeBody (s.port p).cmd (s.port p).dataBytes)
        { s with
          inputs := rest, hand := p
          ports := s.ports.set p { s.port p with csField := (s.port p).csField.set 3 b, ps := .seekStart, cnt := 0 } }
        = .next t ∧
      step s = .next (t.outputting [.result p .completeOk])

/-- A checksum verifies when it is "XXXX", or spells in four hex digits the whole 32-bit sum, and not otherwise; a hex
digit is `0` to `9`, `A` to `F` or `a` to `f`, the most significant comes first, and one bad character spoils the field.
Rests on D5 (the digits, lower case among them) and D6 (all 32 bits compared). -/
def Obligations.VerifierAcceptsBypassOrSum : Prop :=
  (∀ (acc : Word32) (cs : Bytes4),
    csumVerify acc cs = true ↔ (cs = ⟨0x58, 0x58, 0x58, 0x58⟩ ∨ ∃ v, hex4 cs = some v ∧ v.setWidth 32 = acc)) ∧
  (∀ c : Byte,
    (0x30 ≤ c.toNat → c.toNat ≤ 0x39 → hexval c = some (c.toNat - 0x30)) ∧
    (0x41 ≤ c.toNat → c.toNat ≤ 0x46 → hexval c = some (c.toNat - 0x41 + 10)) ∧
    (0x61 ≤ c.toNat → c.toNat ≤ 0x66 → hexval c = some (c.toNat - 0x61 + 10)) ∧
    (c.toNat < 0x30 ∨ (0x39 < c.toNat ∧ c.toNat < 0x41) ∨ (0x46 < c.toNat ∧ c.toNat < 0x61) ∨ 0x66 < c.toNat →
      hexval c = none)) ∧
  (∀ (c0 c1 : Byte),
    (∀ d0 d1, hexval c0 = some d0 → hexval c1 = some d1 → ∃ v, hex2 c0 c1 = some v ∧ v.toNat = 16 * d0 + d1) ∧
    (hexval c0 = none ∨ hexval c1 = none → hex2 c0 c1 = none)) ∧
  ∀ f : Bytes4,
    (∀ d0 d1 d2 d3, hexval f.b0 = some d0 → hexval f.b1 = some d1 → hexval f.b2 = some d2 → hexval f.b3 = some d3 →
      ∃ v, hex4 f = some v ∧ v.toNat = 4096 * d0 + 256 * d1 + 16 * d2 + d3) ∧
    ((∃ c ∈ f.toList, hexval c = none) → hex4 f = none)

/-- R140: after a length rejection or a checksum failure nothing is dispatched: the step's only outputs are a
diagnostic and the result, and no register, no stored key and no other port is changed. -/
def Obligations.FailedFramesHaveNoEffect : Prop :=
  ∀ (s : State) (p : Nat) (b : Byte) (rest : List Event),
    s.bootPending = false → s.inputs = .byte p b :: rest → p < s.ports.length →
    (feed (s.port p) b).2 = .reset ∨ (feed (s.port p) b).2 = .completeFail →
    ∃ t e r, step s = .next t ∧ t.outputs = s.outputs ++ [.diag p e, .result p r] ∧
      t.vrt = s.vrt ∧ t.store = s.store ∧ t.sensorAnswers = s.sensorAnswers ∧ t.conflictAnswers = s.conflictAnswers ∧
      t.draws = s.draws ∧ (∀ p', p' ≠ p → t.port p' = s.port p') ∧
      (t.port p).ack = (s.port p).ack ∧ (t.port p).ackLen = (s.port p).ackLen

/-- R146: (a) a result other than `Continue` leaves `SeekStart`; (b) from a start marker the parser is back in `SeekStart`
after exactly 4 bytes if the length is rejected, and after exactly `4 + min(LEN - 4, 516) + 4` otherwise, whatever the
bytes; (c) the counters stay in bounds. -/
def Obligations.ParserSpanIsFixedByTheLength : Prop :=
  (∀ (q : Port) (b : Byte), (feed q b).2 ≠ .cont → (feed q b).1.ps = .seekStart) ∧
  (∀ (q : Port) (len : Bytes4) (tail : List Byte), q.ps = .seekStart →
    let after := fun w => (feedAll q (0x23 :: w)).1.ps
    (∀ n, n < 4 → after (len.toList.take n) ≠ .seekStart) ∧
    (lengthRejected (lenValue len) = true → after len.toList = .seekStart) ∧
    (lengthRejected (lenValue len) = false →
      (tail.length < min ((lenValue len).toNat - 4) 516 + 4 → after (len.toList ++ tail) ≠ .seekStart) ∧
      (tail.length = min ((lenValue len).toNat - 4) 516 + 4 → after (len.toList ++ tail) = .seekStart))) ∧
  (∀ (q : Port) (b : Byte), q.Ok → (feed q b).1.countersOk)

/-- The parser's round trip: fed to a port in `SeekStart`, a frame with command code `cmd` and at most 512 data bytes,
under the bypass or under its own checksum where the sum fits 16 bits, returns `Continue` for every byte but the last and
`FrameComplete(ok)` for the last, and leaves exactly that code and data in the port. Derived by the spec from its parser
rules (D00 claims it up to 504 data bytes); rests on D3 to D7. -/
def Obligations.FramesRoundTripThroughTheParser : Prop :=
  ∀ (q : Port) (cmd : Bytes4) (data : List Byte) (w : List Byte),
    q.ps = .seekStart → data.length ≤ 512 →
    (w = frameX cmd data ∨ (w = frame cmd data ∧ (byteSum (frameBody cmd data)).toNat ≤ 0xFFFF)) →
    let r := feedAll q w
    r.2 = List.replicate (w.length - 1) .cont ++ [.completeOk] ∧
    r.1.ps = .seekStart ∧ r.1.cnt = 0 ∧ r.1.cmd = cmd ∧ r.1.dataBytes = data ∧ r.1.dataLen.toNat = data.length ∧
    r.1.declaredLength.toNat = 8 + data.length ∧ r.1.acc = byteSum (frameBody cmd data)

/-- The serial parser refines the decoder of byte strings: where the decoder reads a command from the front of a byte
string, the parser fed the bytes it consumed completes a frame on the last of them and on no earlier one, and that frame
dispatches the same command. -/
def Obligations.SerialParserAgreesWithDecoder : Prop :=
  ∀ (q : Port) (w rest : List Byte) (i : Instr), q.ps = .seekStart → decode w = .ok (i, rest) →
    ∃ used, w = used ++ rest ∧
      (feedAll q used).2 = List.replicate (used.length - 1) .cont ++ [.completeOk] ∧
      decodeBody (feedAll q used).1.cmd (feedAll q used).1.dataBytes = i

/-- The accumulator is the sum of the stored `LEN`, `CMD` and `DATA` bytes: a `Feed` step keeps that, from every legal
port state. Rests on D3 and D4. -/
def Obligations.FeedKeepsAccumulatorTheSum : Prop :=
  ∀ (q : Port) (b : Byte), q.Ok → q.unreachedZero → q.sumOk →
    (feed q b).1.Ok ∧ (feed q b).1.unreachedZero ∧ (feed q b).1.sumOk

/-- Delivering a byte string to a port as one chunk or split into two at any byte (below the cap) leads to the same outcome,
outputs and all (40_frame_parser.md section 4). That cutting a chunk is a step of its own, so that the second delivery takes
one step more, is the model's choice (log 19). -/
def Obligations.ChunkBoundariesAreInvisible : Prop :=
  ∀ (s : State) (p : Nat) (u v : List Byte) (rest : List Event),
    s.bootPending = false → u.length + v.length ≤ 524 →
    Host.Core.run Sys2Proof.core (1 + (u.length + v.length)) { s with inputs := .chunk p (u ++ v) :: rest } =
    Host.Core.run Sys2Proof.core (2 + (u.length + v.length)) { s with inputs := .chunk p u :: .chunk p v :: rest }

/-- The host's wrapper puts the first 524 bytes of a chunk on offer and drops the rest. Rests on D9 and log 19. -/
def Obligations.ChunksAreCutAt524Bytes : Prop :=
  ∀ (s : State) (p : Nat) (bytes : List Byte) (rest : List Event),
    s.bootPending = false → s.inputs = .chunk p bytes :: rest →
    step s = .next { s with inputs := (bytes.take 524).map (Event.byte p) ++ rest }

/-- A session reset zeroes the frame fields of its port and forces it to `SeekStart`; the reply last built, every other
port, the registers and the outputs stay. Rests on D31. -/
def Obligations.SessionResetDiscardsTheFrame : Prop :=
  ∀ (s : State) (p : Nat) (rest : List Event),
    s.bootPending = false → s.inputs = .sreset p :: rest → p < s.ports.length →
    step s = .next { s with
      inputs := rest
      ports := s.ports.set p { Port.reset with ack := (s.port p).ack, ackLen := (s.port p).ackLen } }

/-- 524 bytes none of which is `'#'`, a hex digit or `'X'` bring a legal port to `SeekStart`, and no frame is accepted on
the way. Derived by the spec in 70_reset_and_hazards.md. -/
def Obligations.NeutralBytesResynchronise : Prop :=
  ∀ (q : Port) (w : List Byte), q.Ok → w.length = 524 →
    (∀ b ∈ w, b ≠ 0x23 ∧ hexval b = none ∧ b ≠ 0x58) →
    (feedAll q w).1.ps = .seekStart ∧ .completeOk ∉ (feedAll q w).2

/-- R148: the parser's state changes only along the graph's edges, on a byte of its own port, and to `SeekStart` on a
session reset of the port and on hard reset. -/
def Obligations.ParserMovesOnlyAlongItsGraph : Prop :=
  ∀ (s t : State) (e : Event) (rest : List Event) (p : Nat),
    s.bootPending = false → s.inputs = e :: rest → step s = .next t → p < s.ports.length →
    match e with
    | .byte p' _ =>
      if p' = p then ((s.port p).ps, (t.port p).ps) ∈ graphEdges else (t.port p).ps = (s.port p).ps
    | .sreset p' => if p' = p then (t.port p).ps = .seekStart else (t.port p).ps = (s.port p).ps
    | .hardReset => (t.port p).ps = .seekStart
    | .chunk _ _ => (t.port p).ps = (s.port p).ps
    | .capture _ => (t.port p).ps = (s.port p).ps

/-- R23: a port's state is neither read nor written by another port's steps or by the analysis agent: changing it before
such a step or after it is the same. -/
def Obligations.PortsAreIsolated : Prop :=
  ∀ (s : State) (p p' : Nat) (x : Port) (b : Byte) (frame : List Half), p' ≠ p →
    feedPort p b (s.setPort p' x) = mapNext (fun t => t.setPort p' x) (feedPort p b s) ∧
    sessionReset p (s.setPort p' x) = mapNext (fun t => t.setPort p' x) (sessionReset p s) ∧
    recompute frame (s.setPort p' x) = mapNext (fun t => t.setPort p' x) (recompute frame s) ∧
    (∀ t, feedPort p b s = .next t → t.port p' = s.port p') ∧
    (∀ t, recompute frame s = .next t → t.ports = s.ports)

/-! ### The broker and WREG -/

/-- The three address classes by range, and how many addresses each holds: 22, 2 and 232. -/
def Obligations.AddressClassesByRange : Prop :=
  (∀ a : Byte, classify a =
    if 0xC0 ≤ a.toNat ∧ a.toNat ≤ 0xD5 then .analysis
    else if a.toNat = 0xB2 ∨ a.toNat = 0xB3 then .version else .hardware) ∧
  ((List.range 256).filter fun n => classify (BitVec.ofNat 8 n) = .analysis).length = 22 ∧
  ((List.range 256).filter fun n => classify (BitVec.ofNat 8 n) = .version).length = 2 ∧
  ((List.range 256).filter fun n => classify (BitVec.ofNat 8 n) = .hardware).length = 232

/-- R174, R176: a read of an Analysis address makes no call and changes nothing; of a Version address it makes one
`ver_read` and answers its constant; of a Hardware address it makes one `hw_read` and answers the next byte the sensor
offers, if one is on offer, and some byte otherwise. -/
def Obligations.BrokerReadsByClass : Prop :=
  ∀ (s : State) (a : Byte),
    SameButReads s (brokerRead s a).2 ∧ (brokerRead s a).2.outputs = s.outputs ++ readCalls a ∧
    (classify a = .analysis → (brokerRead s a).2 = s ∧ ∃ r, regAt a = some r ∧ (brokerRead s a).1 = s.vrt.readReg r) ∧
    (classify a = .version →
      (brokerRead s a).1 = .w8 (if a = 0xB2 then s.params.versionB2 else s.params.versionB3)) ∧
    (classify a = .hardware → ∃ v, (brokerRead s a).1 = .w8 v ∧
      ∀ x rest, s.sensorAnswers = x :: rest → v = x ∧ (brokerRead s a).2.sensorAnswers = rest)

/-- The register at each Analysis address and the width it is read in. Rests on D18 (the address map). -/
def Obligations.AnalysisRegistersByAddress : Prop :=
  ∀ (s : State),
    (brokerRead s 0xC0).1 = .w8 s.vrt.xsplit ∧ (brokerRead s 0xC1).1 = .w8 s.vrt.ysplit ∧
    (brokerRead s 0xC2).1 = .w16 s.vrt.max.a ∧ (brokerRead s 0xC3).1 = .w16 s.vrt.center.a ∧
    (brokerRead s 0xC4).1 = .w16 s.vrt.max.b ∧ (brokerRead s 0xC5).1 = .w16 s.vrt.center.b ∧
    (brokerRead s 0xC6).1 = .w16 s.vrt.max.c ∧ (brokerRead s 0xC7).1 = .w16 s.vrt.center.c ∧
    (brokerRead s 0xC8).1 = .w16 s.vrt.max.d ∧ (brokerRead s 0xC9).1 = .w16 s.vrt.center.d ∧
    (brokerRead s 0xCA).1 = .w8 s.vrt.burnX.a ∧ (brokerRead s 0xCB).1 = .w8 s.vrt.burnY.a ∧
    (brokerRead s 0xCC).1 = .w8 s.vrt.burnX.b ∧ (brokerRead s 0xCD).1 = .w8 s.vrt.burnY.b ∧
    (brokerRead s 0xCE).1 = .w8 s.vrt.burnX.c ∧ (brokerRead s 0xCF).1 = .w8 s.vrt.burnY.c ∧
    (brokerRead s 0xD0).1 = .w8 s.vrt.burnX.d ∧ (brokerRead s 0xD1).1 = .w8 s.vrt.burnY.d ∧
    (brokerRead s 0xD2).1 = .w16 s.vrt.burnT.a ∧ (brokerRead s 0xD3).1 = .w16 s.vrt.burnT.b ∧
    (brokerRead s 0xD4).1 = .w16 s.vrt.burnT.c ∧ (brokerRead s 0xD5).1 = .w16 s.vrt.burnT.d

/-- `WREG` of a Hardware address, 0xE0..0xE5 included, is one `hw_write` and the reply. -/
def Obligations.WregHardwareWritesThrough : Prop :=
  ∀ (s : State) (a v : Byte), classify a = .hardware →
    exec (.wreg (.ok a) (.ok v)) s = .next (s.replied [.hwWrite a v] codeWreg [])

/-- `WREG` of `XSPLIT` and `YSPLIT` stores the value clamped to `[1, FRAME_W - 1]` and `[1, FRAME_H - 1]`: 1 for a lower
value, the upper bound for a higher one, else the value sent. The stored value is persisted under its address, no burner
is moved, and the reply is sent. Rests on D20 (the bounds) and D21. -/
def Obligations.WregSplitsClampedAndPersisted : Prop :=
  ∀ (s : State) (v : Byte),
    let clamped := fun lo hi : Nat => if v.toNat < lo then lo else if hi < v.toNat then hi else v.toNat
    (∃ x : Byte, x.toNat = clamped 1 (s.params.frameW - 1) ∧
      exec (.wreg (.ok 0xC0) (.ok v)) s =
        .next ({ s with vrt := { s.vrt with xsplit := x }, store := s.store.insert 0xC0 x } |>.replied
          [.nvPut 0xC0 x] codeWreg [])) ∧
    (∃ y : Byte, y.toNat = clamped 1 (s.params.frameH - 1) ∧
      exec (.wreg (.ok 0xC1) (.ok v)) s =
        .next ({ s with vrt := { s.vrt with ysplit := y }, store := s.store.insert 0xC1 y } |>.replied
          [.nvPut 0xC1 y] codeWreg []))

/-- `WREG` of a burner coordinate stores the value clamped to the bounds of its quadrant under the current splits (the
lower bound for a value below it, the upper bound for a value above it, else the value sent), persists it under its
address, and replies; the other coordinates stay. Rests on D21 (the bounds of quadrants B, C, D and of the y axis) and
D18 (the addresses). -/
def Obligations.WregBurnersClampedAndPersisted : Prop :=
  ∀ (s : State) (v : Byte) (q : Quadrant),
    let ax : Byte := match q with | .a => 0xCA | .b => 0xCC | .c => 0xCE | .d => 0xD0
    let ay : Byte := match q with | .a => 0xCB | .b => 0xCD | .c => 0xCF | .d => 0xD1
    let left := q = .a ∨ q = .c
    let top := q = .a ∨ q = .b
    let clamped := fun lo hi : Nat => if v.toNat < lo then lo else if hi < v.toNat then hi else v.toNat
    (∃ x : Byte,
      x.toNat = clamped (if left then 0 else s.vrt.xsplit.toNat)
        (if left then s.vrt.xsplit.toNat - 1 else s.params.frameW - 1) ∧
      exec (.wreg (.ok ax) (.ok v)) s =
        .next ({ s with vrt := { s.vrt with burnX := s.vrt.burnX.set q x }, store := s.store.insert ax.toNat x }
          |>.replied [.nvPut ax x] codeWreg [])) ∧
    (∃ y : Byte,
      y.toNat = clamped (if top then 0 else s.vrt.ysplit.toNat)
        (if top then s.vrt.ysplit.toNat - 1 else s.params.frameH - 1) ∧
      exec (.wreg (.ok ay) (.ok v)) s =
        .next ({ s with vrt := { s.vrt with burnY := s.vrt.burnY.set q y }, store := s.store.insert ay.toNat y }
          |>.replied [.nvPut ay y] codeWreg []))

/-- R182: a write to a computed Analysis register or to a Version register changes no state, calls no collaborator and
raises no error; the reply is sent as for an accepted write. -/
def Obligations.WregIgnoredWritesOnlyReply : Prop :=
  ∀ (s : State) (a v : Byte),
    ((0xC2 ≤ a.toNat ∧ a.toNat ≤ 0xC9) ∨ (0xD2 ≤ a.toNat ∧ a.toNat ≤ 0xD5) ∨ a.toNat = 0xB2 ∨ a.toNat = 0xB3) →
    brokerWrite s a v = (.ignored, s) ∧
    exec (.wreg (.ok a) (.ok v)) s = .next (s.replied [] codeWreg [])

/-- R181: an accepted write of a coordinate register leaves the stored value, as the VRT now holds it, in the durable
store under the register's key and in one `nv_put`, also when it is the value held before; every other key is as before.
A write that is not of a coordinate leaves the whole store and calls no `nv_put`, and an ignored one does nothing. -/
def Obligations.AcceptedWritesArePersisted : Prop :=
  ∀ (s : State) (a v : Byte),
    let t := (brokerWrite s a v).2
    (a.toNat ∈ storeKeys →
      ∃ x, (brokerRead t a).1 = .w8 x ∧ t.nvGet a = some x ∧ t.outputs = s.outputs ++ [.nvPut a x] ∧
        ∀ k, k ≠ a → t.nvGet k = s.nvGet k) ∧
    (a.toNat ∉ storeKeys → t.store = s.store ∧ ∀ k x, .nvPut k x ∈ t.outputs → .nvPut k x ∈ s.outputs) ∧
    ((brokerWrite s a v).1 = .ignored → t = s)

/-- With the coordinates in range, a burner coordinate written by `WREG` lies in the bounds of its own quadrant, and is
the value sent when that is inside them; a value on the far side of a split or of the frame stores the nearest coordinate
of the quadrant, so that for A and C a value at or above `xsplit` stores `xsplit - 1`. Rests on D20, D21. -/
def Obligations.WrittenBurnerLiesInItsQuadrant : Prop :=
  ∀ (s : State) (v : Byte) (q : Quadrant), s.coordsOk →
    let ax : Byte := match q with | .a => 0xCA | .b => 0xCC | .c => 0xCE | .d => 0xD0
    let ay : Byte := match q with | .a => 0xCB | .b => 0xCD | .c => 0xCF | .d => 0xD1
    let xs := s.vrt.xsplit.toNat
    let ys := s.vrt.ysplit.toNat
    ∃ t u, exec (.wreg (.ok ax) (.ok v)) s = .next t ∧ exec (.wreg (.ok ay) (.ok v)) s = .next u ∧
      (∀ y, y < s.params.frameH → ((q = .a ∨ q = .b) ↔ y < ys) →
        s.inQuadrant q (t.vrt.burnX.get q).toNat y ∧ (s.inQuadrant q v.toNat y → t.vrt.burnX.get q = v)) ∧
      (∀ x, x < s.params.frameW → ((q = .a ∨ q = .c) ↔ x < xs) →
        s.inQuadrant q x (u.vrt.burnY.get q).toNat ∧ (s.inQuadrant q x v.toNat → u.vrt.burnY.get q = v)) ∧
      (q = .a ∨ q = .c → xs ≤ v.toNat → (t.vrt.burnX.get q).toNat = xs - 1) ∧
      (q = .b ∨ q = .d → v.toNat < xs → (t.vrt.burnX.get q).toNat = xs) ∧
      (q = .b ∨ q = .d → s.params.frameW ≤ v.toNat → (t.vrt.burnX.get q).toNat = s.params.frameW - 1) ∧
      (q = .a ∨ q = .b → ys ≤ v.toNat → (u.vrt.burnY.get q).toNat = ys - 1) ∧
      (q = .c ∨ q = .d → v.toNat < ys → (u.vrt.burnY.get q).toNat = ys) ∧
      (q = .c ∨ q = .d → s.params.frameH ≤ v.toNat → (u.vrt.burnY.get q).toNat = s.params.frameH - 1)

/-- A `WREG` of a coordinate register followed by an `RREG` of it replies with the value stored, zero-extended to four
characters, and it is the value persisted. Rests on D19. -/
def Obligations.CoordinateReadsBackAsStored : Prop :=
  ∀ (s : State) (a v : Byte), a.toNat ∈ storeKeys →
    ∃ t x, exec (.wreg (.ok a) (.ok v)) s = .next t ∧ t.nvGet a = some x ∧
      exec (.rreg (.ok a)) t = .next (t.replied [] codeRreg (hexText4 (x.setWidth 16)))

/-! ### RREG, RRSE, POLL -/

/-- R209: `RREG` with a valid address makes one broker read and replies with the value as its class is written, 4
characters and 20 bytes in all for an Analysis address, 2 characters and 18 bytes otherwise; nothing else changes. Data
bytes after the second are ignored. -/
def Obligations.RregRepliesWithTheValue : Prop :=
  ∀ (s : State) (a : Byte),
    let r := brokerRead s a
    let text := if classify a = .analysis then hexText4 r.1.zext16 else hexText2 (r.1.zext16.setWidth 8)
    exec (.rreg (.ok a)) s = .next (r.2.replied [] codeRreg text) ∧ SameButReads s r.2 ∧
    r.2.outputs = s.outputs ++ readCalls a ∧
    (classify a = .analysis →
      (ackFrame s.params.ackFiller codeRreg text).length = 20 ∧
      ((ackFrame s.params.ackFiller codeRreg text).drop 4).take 4 = [0x30, 0x30, 0x30, 0x43]) ∧
    (classify a ≠ .analysis →
      (ackFrame s.params.ackFiller codeRreg text).length = 18 ∧
      ((ackFrame s.params.ackFiller codeRreg text).drop 4).take 4 = [0x30, 0x30, 0x30, 0x41]) ∧
    ∀ (c0 c1 : Byte) (more : List Byte), hex2 c0 c1 = some a → decodeBody codeRreg (c0 :: c1 :: more) = .rreg (.ok a)

/-- `RRSE` with valid addresses reads each in data order, one broker read per occurrence, and replies with each address
and its value; all Analysis values come from one VRT. Rests on D14, D15 and D19. -/
def Obligations.RrseReadsInOrderAndReplies : Prop :=
  ∀ (s : State) (l : List Byte),
    ∃ (vals : List RegValue) (u : State),
      vals.length = l.length ∧ SameButReads s u ∧ u.outputs = s.outputs ++ l.flatMap readCalls ∧
      exec (.rrse (l.map .ok)) s = .next (u.replied [] codeRrse
        ((l.zip vals).flatMap fun c => hexText2 c.1 ++ valueChars (classify c.1) c.2)) ∧
      ∀ (j : Nat) (a : Byte) (v : RegValue), l[j]? = some a → vals[j]? = some v →
        (classify a = .analysis → ∃ r, regAt a = some r ∧ v = s.vrt.readReg r) ∧
        (classify a = .version → v = .w8 (if a = 0xB2 then s.params.versionB2 else s.params.versionB3)) ∧
        (classify a = .hardware → ∃ b, v = .w8 b)

/-- The sensor's answers on offer go to the Hardware addresses of an `RRSE` in data order. When they run out part-way,
each further Hardware address takes a free value of its own, in the same order, and no more values are drawn than that.
Rests on D14 and log 5; nothing constrains the free values. -/
def Obligations.RrseTakesSensorAnswersInOrder : Prop :=
  ∀ (s : State) (l : List Byte),
    let n := (l.filter fun a => classify a = .hardware).length
    let short := n - s.sensorAnswers.length
    ∃ (vals : List RegValue) (u : State),
      vals.length = l.length ∧
      sensorValues l vals =
        s.sensorAnswers.take n ++ (List.range short).map (fun j => Config.sensorDraw (s.draws + j)) ∧
      u.sensorAnswers = s.sensorAnswers.drop n ∧ u.draws = s.draws + short ∧
      exec (.rrse (l.map .ok)) s = .next (u.replied [] codeRrse
        ((l.zip vals).flatMap fun c => hexText2 c.1 ++ valueChars (classify c.1) c.2))

/-- The reply to an `RRSE` has `16 + m` bytes and declares `8 + m`, with `m` the sum of 6 for each Analysis address and 4
for each other; with at most 256 addresses it has at most 1552 bytes. Derived by the spec (D14, D37). -/
def Obligations.RrseReplyLength : Prop :=
  ∀ (s : State) (l : List Byte), s.hand < s.ports.length → l.length ≤ 256 →
    let m := (l.map seqChars).sum
    ∃ t, exec (.rrse (l.map .ok)) s = .next t ∧
      (t.port t.hand).ack.length = 16 + m ∧ (t.port t.hand).ackLen.toNat = 16 + m ∧ 16 + m ≤ 1552 ∧
      ((t.port t.hand).ack.drop 4).take 4 = hexText4 (BitVec.ofNat 16 (8 + m))

/-- `POLL` with no streaming conflict sets the frequency, 25 when it is above 25, and replies; with invalid data it sets
nothing and replies. The predicate is sampled once. Rests on D13 and D27. -/
def Obligations.PollSetsTheClampedFrequency : Prop :=
  ∀ (s : State) (f : Byte) (x : Operand) (rest : List Bool), s.conflictAnswers = false :: rest →
    exec (.poll (.ok f)) s =
      .next ({ s with conflictAnswers := rest } |>.replied
        [.setPoll (BitVec.ofNat 8 (min f.toNat 25))] codePoll []) ∧
    ((∀ g, x ≠ .ok g) →
      exec (.poll x) s =
        .next ({ s with conflictAnswers := rest } |>.replied [.diag s.hand .invalidCommandData] codePoll []))

/-- R286: `POLL` during a streaming conflict is rejected, whatever its data: no reply, the action not performed, a
diagnostic. -/
def Obligations.PollRejectedWhileStreaming : Prop :=
  ∀ (s : State) (x : Operand) (rest : List Bool), s.conflictAnswers = true :: rest →
    exec (.poll x) s =
      .next ({ s with conflictAnswers := rest } |>.outputting [.diag s.hand .streamingConflict])

/-- `POLL` completes in every state and form: with an answer of the predicate on offer, the answer decides between the
conflict (a diagnostic) and the action with its reply; with none on offer one of the two happens, by a free value that
nothing constrains. Rests on D13, D27 and log 6. -/
def Obligations.PollCompletesForEitherPredicate : Prop :=
  ∀ (s : State) (x : Operand),
    let after := fun (conflict : Bool) (u : State) =>
      if conflict then u.outputting [.diag u.hand .streamingConflict]
      else match x with
        | .ok f => u.replied [.setPoll (BitVec.ofNat 8 (min f.toNat 25))] codePoll []
        | .missing => u.replied [.diag u.hand .invalidCommandData] codePoll []
        | .malformed => u.replied [.diag u.hand .invalidCommandData] codePoll []
    (∀ c rest, s.conflictAnswers = c :: rest →
      exec (.poll x) s = .next (after c { s with conflictAnswers := rest })) ∧
    (s.conflictAnswers = [] →
      ∃ c, exec (.poll x) s = .next (after c { s with draws := s.draws + 1 }))

/-! ### Every command -/

/-- Missing or malformed operands: `WREG` makes no write and still replies; `RREG` reads nothing and sends nothing; `RRSE`
with any such address makes no read at all and sends nothing; each emits one diagnostic. Rests on D13 and D14. -/
def Obligations.InvalidDataWritesAndReadsNothing : Prop :=
  ∀ (s : State) (x y : Operand) (l : List Operand),
    ((∀ a, x ≠ .ok a) ∨ (∀ v, y ≠ .ok v) →
      exec (.wreg x y) s = .next (s.replied [.diag s.hand .invalidCommandData] codeWreg [])) ∧
    ((∀ a, x ≠ .ok a) → exec (.rreg x) s = .next (s.outputting [.diag s.hand .invalidCommandData])) ∧
    ((∃ z ∈ l, ∀ a, z ≠ .ok a) → exec (.rrse l) s = .next (s.outputting [.diag s.hand .invalidCommandData]))

/-- R204: the encoder's reply, byte by byte, of a payload of at most 1536 bytes: three fillers, `'#'`, the declared length,
the received command code, the payload, and the external checksum of length, code and payload; kept in `ack` with its
count and handed over whole. Nothing else changes. Every reply of a command dispatched from the received code has that form
with that code, although a meaning builds it from the instruction's own code (log 9). -/
def Obligations.BuildAckSerialisesTheReply : Prop :=
  ∀ (s : State),
    let cmd := (s.port s.hand).cmd
    let f := s.params.ackFiller
    let reply := fun payload : List Byte =>
      let body := hexText4 (BitVec.ofNat 16 (8 + payload.length)) ++ cmd.toList ++ payload
      [f, f, f, 0x23] ++ body ++ hexText4 (Config.ackChecksum body)
    (∀ payload : List Byte, payload.length ≤ 1536 → s.hand < s.ports.length →
      ∃ n : BitVec 11, n.toNat = 16 + payload.length ∧ (reply payload).length = 16 + payload.length ∧
        s.buildAck cmd payload = { s with
          ports := s.ports.set s.hand { s.port s.hand with ack := reply payload, ackLen := n }
          outputs := s.outputs ++ [.emitAck s.hand (reply payload)] }) ∧
    ∀ data : List Byte, ∃ t o, exec (decodeBody cmd data) s = .next t ∧ t.outputs = s.outputs ++ o ∧
      ∀ p bytes, .emitAck p bytes ∈ o → p = s.hand ∧ ∃ payload, bytes = reply payload

/-- The frame of every command, WREG, RREG, RRSE, POLL and UNKNOWN, in every form: it completes; it changes no parser
state, counter or frame field of any port, no reply of another port, no computed register, no identity byte, no parameter
and nothing on offer from the world but the answers it takes; no data buffer byte; and of the durable store only the key
of a `WREG` of a coordinate, and of the registers only the one a `WREG` addresses. RREG, RRSE, POLL and UNKNOWN change no
register. The address map rests on D18, that a split write moves no burner on D21. -/
def Obligations.CommandsFrame : Prop :=
  ∀ (i : Instr) (s : State),
    ∃ t, exec i s = .next t ∧
      t.params = s.params ∧ t.hand = s.hand ∧ t.bootPending = s.bootPending ∧ t.inputs = s.inputs ∧
      t.ports.length = s.ports.length ∧ (∀ p, p ≠ s.hand → t.port p = s.port p) ∧
      t.port s.hand = { s.port s.hand with ack := (t.port s.hand).ack, ackLen := (t.port s.hand).ackLen } ∧
      t.vrt.max = s.vrt.max ∧ t.vrt.center = s.vrt.center ∧ t.vrt.burnT = s.vrt.burnT ∧ t.vrt.devId = s.vrt.devId ∧
      (∀ k, (∀ a v, i = .wreg (.ok a) (.ok v) → a.toNat ∈ storeKeys → k ≠ a.toNat) →
        t.store.lookup k = s.store.lookup k) ∧
      (∀ r, (∀ a v, i = .wreg (.ok a) (.ok v) → regAt a ≠ some r) → t.vrt.readReg r = s.vrt.readReg r) ∧
      ((∀ x y, i ≠ .wreg x y) → t.vrt = s.vrt ∧ t.store = s.store) ∧
      ((∀ f, i ≠ .poll f) → t.conflictAnswers = s.conflictAnswers) ∧
      ((∀ a, i ≠ .rreg a) → (∀ l, i ≠ .rrse l) → t.sensorAnswers = s.sensorAnswers)

/-- One command sends at most one reply, on the port in hand, and it is the last output it makes. -/
def Obligations.AtMostOneReplyPerCommand : Prop :=
  ∀ (i : Instr) (s : State),
    ∃ t o, exec i s = .next t ∧ t.outputs = s.outputs ++ o ∧
      (∀ p bytes, .emitAck p bytes ∈ o → p = s.hand ∧ o.getLast? = some (.emitAck p bytes)) ∧
      (o.filter fun x => match x with | .emitAck _ _ => true | _ => false).length ≤ 1

/-! ### The reducer -/

/-- R252: every pixel belongs to exactly one quadrant, by `x < xsplit` and `y < ysplit` independently, and with the splits
in range the quadrants hold `xs * ys`, `(W - xs) * ys`, `xs * (H - ys)` and `(W - xs) * (H - ys)` pixels. -/
def Obligations.QuadrantsPartitionTheFrame : Prop :=
  (∀ xs ys x y : Nat,
    (quadOf xs ys x y = .a ↔ x < xs ∧ y < ys) ∧ (quadOf xs ys x y = .b ↔ xs ≤ x ∧ y < ys) ∧
    (quadOf xs ys x y = .c ↔ x < xs ∧ ys ≤ y) ∧ (quadOf xs ys x y = .d ↔ xs ≤ x ∧ ys ≤ y)) ∧
  ∀ w h xs ys : Nat, 1 ≤ xs → xs ≤ w - 1 → 1 ≤ ys → ys ≤ h - 1 →
    let size := fun q => ((coords w h).filter fun c => quadOf xs ys c.1 c.2 = q).length
    size .a = xs * ys ∧ size .b = (w - xs) * ys ∧ size .c = xs * (h - ys) ∧ size .d = (w - xs) * (h - ys) ∧
    ∀ q, 0 < size q

/-- A recompute of a frame of the right size completes, and the maximum it stores for a quadrant is the greatest pixel of
that quadrant: no pixel of it is greater, and one of them equals it. Rests on D24 (the running maximum starts at 0). -/
def Obligations.RecomputeStoresTheMaximum : Prop :=
  ∀ (s : State) (frame : List Half), s.coordsOk → frame.length = s.params.frameW * s.params.frameH →
    ∃ t, recompute frame s = .next t ∧
      ∀ q, (∀ x y, s.inQuadrant q x y → pix s.params.frameW frame x y ≤ t.vrt.max.get q) ∧
        ∃ x y, s.inQuadrant q x y ∧ pix s.params.frameW frame x y = t.vrt.max.get q

/-- A recompute stores for each quadrant the pixel at its centre coordinate and the pixel at its burner coordinate. Rests
on D22 (the centre formula) and D21 (a burner is sampled where it is). -/
def Obligations.RecomputeSamplesCentreAndBurner : Prop :=
  ∀ (s : State) (frame : List Half), frame.length = s.params.frameW * s.params.frameH →
    ∃ t, recompute frame s = .next t ∧
      ∀ q,
        let xs := s.vrt.xsplit.toNat
        let ys := s.vrt.ysplit.toNat
        let cx := min ((if q = .a ∨ q = .c then xs else xs + s.params.frameW) / 2) (s.params.frameW - 1)
        let cy := min ((if q = .a ∨ q = .b then ys else ys + s.params.frameH) / 2) (s.params.frameH - 1)
        t.vrt.center.get q = pix s.params.frameW frame cx cy ∧
        t.vrt.burnT.get q = pix s.params.frameW frame (s.vrt.burnX.get q).toNat (s.vrt.burnY.get q).toNat

/-- With the splits in range the centre pixel lies inside its own quadrant, and the clamp to the frame never acts. Rests
on D22. -/
def Obligations.CentreLiesInItsQuadrant : Prop :=
  ∀ (s : State) (q : Quadrant), s.coordsOk →
    let xs := s.vrt.xsplit.toNat
    let ys := s.vrt.ysplit.toNat
    s.inQuadrant q (centreX s.params.frameW xs q) (centreY s.params.frameH ys q) ∧
    centreX s.params.frameW xs q = (if q = .a ∨ q = .c then xs else xs + s.params.frameW) / 2 ∧
    centreY s.params.frameH ys q = (if q = .a ∨ q = .b then ys else ys + s.params.frameH) / 2

/-- R260: a captured frame is taken off the list on offer and recomputed, and that writes no split, no burner coordinate,
no identity byte, no port state and no stored key. -/
def Obligations.RecomputeWritesOnlyItsResults : Prop :=
  ∀ (s : State) (frame : List Half) (rest : List Event),
    s.bootPending = false → s.inputs = .capture frame :: rest →
    frame.length = s.params.frameW * s.params.frameH →
    ∃ t, step s = .next t ∧ recompute frame { s with inputs := rest } = .next t ∧
      t.vrt.xsplit = s.vrt.xsplit ∧ t.vrt.ysplit = s.vrt.ysplit ∧ t.vrt.burnX = s.vrt.burnX ∧
      t.vrt.burnY = s.vrt.burnY ∧ t.vrt.devId = s.vrt.devId ∧ t.ports = s.ports ∧ t.store = s.store ∧
      t.params = s.params ∧ t.hand = s.hand ∧ t.bootPending = s.bootPending ∧ t.inputs = rest ∧
      t.sensorAnswers = s.sensorAnswers ∧ t.conflictAnswers = s.conflictAnswers ∧ t.draws = s.draws

/-- A recompute emits one broadcast, of the eight results `BCAST_SELECT` chooses, after the commit; and a frame of
another size is refused by name. Rests on D25 (the selection is open) and log 16. -/
def Obligations.RecomputeBroadcastsOnce : Prop :=
  ∀ (s : State) (frame : List Half),
    (frame.length = s.params.frameW * s.params.frameH →
      ∃ t, recompute frame s = .next t ∧
        t.outputs = s.outputs ++ [.bcast (s.params.bcastSelect.map fun r =>
          match r.kind with
          | .max => t.vrt.max.get r.quad
          | .center => t.vrt.center.get r.quad
          | .burnT => t.vrt.burnT.get r.quad)]) ∧
    (frame.length ≠ s.params.frameW * s.params.frameH → recompute frame s = .refused .frameSize)

/-! ### Reset, boot and the whole machine -/

/-- The state after hard reset: every port in `SeekStart` with zero fields and no reply, the computed registers 0, the
identity the parameter `DEVICE_ID`, the boot load still to be made. The zero values are the spec's own (D24, D26, D36,
D37); that nothing is on offer and the store is empty is the model's (log 4, log 11). -/
def Obligations.ResetValues : Prop :=
  (∀ q ∈ State.reset.ports, q.ps = .seekStart ∧ q.cnt = 0 ∧ q.lenField = .zero ∧ q.cmd = .zero ∧ q.csField = .zero ∧
    (∀ i, q.data.read i = 0) ∧ q.declaredLength = 0 ∧ q.dataLen = 0 ∧ q.acc = 0 ∧ q.ack = [] ∧ q.ackLen = 0) ∧
  1 ≤ State.reset.ports.length ∧
  (∀ q, State.reset.vrt.max.get q = 0 ∧ State.reset.vrt.center.get q = 0 ∧ State.reset.vrt.burnT.get q = 0) ∧
  State.reset.vrt.devId = State.reset.params.deviceId ∧ State.reset.bootPending = true ∧
  State.reset.inputs = [] ∧ State.reset.store = [] ∧ State.reset.outputs = []

/-- The invariant holds at reset. -/
def Obligations.InvariantHoldsAtReset : Prop := State.reset.Inv

/-- Every step keeps the invariant: legal port states, data buffers and the durable store in canonical form, the
coordinates in range once the boot load is made. -/
def Obligations.EveryStepKeepsTheInvariant : Prop :=
  ∀ s t : State, s.Inv → step s = .next t → t.Inv

/-- The boot load is the first step after a hard reset: whatever the durable store and the defaults hold, it brings the
coordinates in range and each burner into its own quadrant, and writes nothing else. Rests on D26 and log 3. -/
def Obligations.BootLoadEstablishesTheCoordinates : Prop :=
  ∀ s : State, s.bootPending = true →
    ∃ t, step s = .next t ∧ t.bootPending = false ∧ t.coordsOk ∧
      (∀ q, t.inQuadrant q (t.vrt.burnX.get q).toNat (t.vrt.burnY.get q).toNat) ∧
      t.ports = s.ports ∧ t.store = s.store ∧ t.inputs = s.inputs ∧ t.outputs = s.outputs ∧ t.params = s.params ∧
      t.vrt.max = s.vrt.max ∧ t.vrt.center = s.vrt.center ∧ t.vrt.burnT = s.vrt.burnT ∧ t.vrt.devId = s.vrt.devId

/-- The boot load takes each persisted register from the durable store, and from its default where the store has no
value, through the clamps of a write: the lower bound for a value below it, the upper bound for a value above it, else the
value. Rests on D26, and on D20 and D21 for the bounds. -/
def Obligations.BootLoadReadsStoreOrDefaults : Prop :=
  ∀ s : State, s.bootPending = true →
    let clamped := fun (v : Byte) (lo hi : Nat) => if v.toNat < lo then lo else if hi < v.toNat then hi else v.toNat
    ∃ t, step s = .next t ∧
      t.vrt.xsplit.toNat = clamped ((s.store.lookup 0xC0).getD s.params.defXsplit) 1 (s.params.frameW - 1) ∧
      t.vrt.ysplit.toNat = clamped ((s.store.lookup 0xC1).getD s.params.defYsplit) 1 (s.params.frameH - 1) ∧
      ∀ q : Quadrant,
        let n := match q with | .a => 0 | .b => 1 | .c => 2 | .d => 3
        let xs := t.vrt.xsplit.toNat
        let ys := t.vrt.ysplit.toNat
        (t.vrt.burnX.get q).toNat = clamped ((s.store.lookup (0xCA + 2 * n)).getD (s.params.defBurnX.get q))
          (if q = .a ∨ q = .c then 0 else xs) (if q = .a ∨ q = .c then xs - 1 else s.params.frameW - 1) ∧
        (t.vrt.burnY.get q).toNat = clamped ((s.store.lookup (0xCA + 2 * n + 1)).getD (s.params.defBurnY.get q))
          (if q = .a ∨ q = .b then 0 else ys) (if q = .a ∨ q = .b then ys - 1 else s.params.frameH - 1)

/-- A split written by `WREG` comes back after a hard reset and the boot load. Rests on D20, D26, and log 11 and 18 (the
durable store keeps its contents over a hard reset). -/
def Obligations.PersistedSplitsSurviveHardReset : Prop :=
  ∀ (s : State) (v : Byte), s.bootPending = false →
    ∃ t u t' u', exec (.wreg (.ok 0xC0) (.ok v)) s = .next t ∧
      Host.Core.run Sys2Proof.core 2 { t with inputs := [.hardReset] } = .next u ∧ u.vrt.xsplit = t.vrt.xsplit ∧
      exec (.wreg (.ok 0xC1) (.ok v)) s = .next t' ∧
      Host.Core.run Sys2Proof.core 2 { t' with inputs := [.hardReset] } = .next u' ∧ u'.vrt.ysplit = t'.vrt.ysplit

/-- A hard reset applied to a running machine gives the block the state after reset, the boot load to be made next. Rests
on D24, D26, and log 2 and 18. -/
def Obligations.HardResetStep : Prop :=
  ∀ (s : State) (rest : List Event), s.bootPending = false → s.inputs = .hardReset :: rest →
    ∃ t, step s = .next t ∧ t.ports = List.replicate s.ports.length Port.reset ∧ t.vrt = Vrt.reset s.params ∧
      t.bootPending = true ∧ t.inputs = rest ∧ t.store = s.store ∧ t.outputs = s.outputs ∧ t.params = s.params

/-- Only the reducer's commit and reset write the computed registers, only an accepted `WREG`, the boot load and reset
write the coordinates, and only a hard reset writes the identity. That a hard reset leaves 0 in the ten coordinate
registers, which 10_state.md R45 leaves unspecified until the boot load, is the model's choice (log 2). -/
def Obligations.OnlyTheirAgentsWriteTheRegisters : Prop :=
  ∀ (s t : State) (e : Event) (rest : List Event),
    s.bootPending = false → s.inputs = e :: rest → step s = .next t →
    match e with
    | .byte p b =>
      t.vrt.max = s.vrt.max ∧ t.vrt.center = s.vrt.center ∧ t.vrt.burnT = s.vrt.burnT ∧ t.vrt.devId = s.vrt.devId ∧
      (t.vrt ≠ s.vrt → (feed (s.port p) b).2 = .completeOk ∧ (s.port p).cmd = codeWreg)
    | .capture _ =>
      t.vrt.xsplit = s.vrt.xsplit ∧ t.vrt.ysplit = s.vrt.ysplit ∧ t.vrt.burnX = s.vrt.burnX ∧
      t.vrt.burnY = s.vrt.burnY ∧ t.vrt.devId = s.vrt.devId
    | .chunk _ _ => t.vrt = s.vrt
    | .sreset _ => t.vrt = s.vrt
    | .hardReset => t.vrt = Vrt.reset s.params

/-- R304: the block is idle when nothing is on offer: the step changes nothing. -/
def Obligations.IdleWhenNothingIsOffered : Prop :=
  ∀ s : State, s.bootPending = false → s.inputs = [] → step s = .next s

/-- Nothing a client sends is fatal: every step on an event the environment may offer answers a next state, and takes
that event off the list; a chunk is replaced on it by its first 524 bytes. That the rest of the list stays, over a hard
reset too, is the model's choice (log 18), and that a chunk is expanded in place (log 19). -/
def Obligations.EveryLegalEventHasANextState : Prop :=
  ∀ (s : State) (e : Event) (rest : List Event),
    s.bootPending = false → s.inputs = e :: rest → e.legal s →
    ∃ t, step s = .next t ∧ ((∀ p bytes, e ≠ .chunk p bytes) → t.inputs = rest) ∧
      ∀ p bytes, e = .chunk p bytes → t.inputs = (bytes.take 524).map (Event.byte p) ++ rest
end

