-- ==== Sys2Proof/Laws/Decode.lean ====
section
/-! SUPPORT. Hex fields read back what they were written from, and the byte sum splits over its parts. -/

namespace Sys2Proof

theorem hexval_hexDigit {n : Nat} (h : n < 16) : hexval (hexDigit n) = some n := by
  have key : ∀ m : Fin 16, hexval (hexDigit m.val) = some m.val := by decide
  exact key ⟨n, h⟩

@[simp] theorem hex2_hexText2 (v : Byte) :
    hex2 (hexDigit (v.toNat / 16)) (hexDigit (v.toNat % 16)) = some v := by
  have h := v.isLt
  have h1 : v.toNat / 16 < 16 := by omega
  have h2 : v.toNat % 16 < 16 := by omega
  simp only [hex2, hexNumber, hexval_hexDigit h1, hexval_hexDigit h2, Option.map_some]
  have : 16 * (16 * 0 + v.toNat / 16) + v.toNat % 16 = v.toNat := by omega
  rw [this, BitVec.ofNat_toNat, BitVec.setWidth_eq]

@[simp] theorem hex4_hexField4 (v : Half) : hex4 (hexField4 v) = some v := by
  have h := v.isLt
  have h1 : v.toNat / 4096 < 16 := by omega
  have h2 : v.toNat / 256 % 16 < 16 := by omega
  have h3 : v.toNat / 16 % 16 < 16 := by omega
  have h4 : v.toNat % 16 < 16 := by omega
  simp only [hex4, hexField4, Bytes4.toList, hexNumber, hexval_hexDigit h1, hexval_hexDigit h2, hexval_hexDigit h3,
    hexval_hexDigit h4, Option.map_some]
  have : 16 * (16 * (16 * (16 * 0 + v.toNat / 4096) + v.toNat / 256 % 16) + v.toNat / 16 % 16) + v.toNat % 16
      = v.toNat := by omega
  rw [this, BitVec.ofNat_toNat, BitVec.setWidth_eq]

@[simp] theorem lenValue_hexField4 (v : Half) : lenValue (hexField4 v) = v.setWidth 32 := by
  simp [lenValue]

/-- When the length is rejected (40_frame_parser.md R134). -/
theorem lengthRejected_iff (len : Word32) : lengthRejected len = true ↔ (len.toNat < 8 ∨ len = 0xFFFFFFFF) := by
  simp only [lengthRejected, Bool.or_eq_true, decide_eq_true_eq, beq_iff_eq]
  rfl

/-- A length written in four digits is rejected exactly when it is below 8: four digits cannot spell the sentinel. -/
theorem lengthRejected_setWidth (v : Half) : lengthRejected (v.setWidth 32) = decide (v.toNat < 8) := by
  have h := v.isLt
  have hs : (v.setWidth 32 == Config.lenSentinel) = false := by
    simp only [beq_eq_false_iff_ne, ne_eq]
    intro hc
    have hl : Config.lenSentinel.toNat = 4294967295 := by decide
    have := congrArg BitVec.toNat hc
    rw [BitVec.toNat_setWidth, hl] at this
    omega
  have hm : (v.setWidth 32).toNat = v.toNat := by
    rw [BitVec.toNat_setWidth]; omega
  simp [lengthRejected, hs, hm, Config.lenMin]

theorem foldl_addByte (s : List Byte) (n : Word32) : s.foldl addByte n = n + byteSum s := by
  induction s generalizing n with
  | nil => simp [byteSum]
  | cons b s ih =>
    have h0 := ih (addByte 0 b)
    simp only [byteSum, List.foldl_cons] at h0 ⊢
    rw [ih, h0]
    simp [addByte, BitVec.add_assoc, byteSum]

@[simp] theorem byteSum_nil : byteSum [] = 0 := rfl

theorem byteSum_cons (b : Byte) (s : List Byte) : byteSum (b :: s) = b.setWidth 32 + byteSum s := by
  have h := foldl_addByte s (addByte 0 b)
  simpa [byteSum, addByte] using h

theorem byteSum_append (s t : List Byte) : byteSum (s ++ t) = byteSum s + byteSum t := by
  have h := foldl_addByte t (byteSum s)
  simpa [byteSum] using h

@[simp] theorem Bytes4.toList_length (f : Bytes4) : f.toList.length = 4 := rfl

@[simp] theorem hexText2_length (v : Byte) : (hexText2 v).length = 2 := rfl

@[simp] theorem hexText4_length (v : Half) : (hexText4 v).length = 4 := rfl

@[simp] theorem frameBody_length (c : Bytes4) (d : List Byte) : (frameBody c d).length = 8 + d.length := by
  simp [frameBody]; omega

end Sys2Proof
end

