-- ==== Sys2Proof/Laws/Memory.lean ====
section
/-! SUPPORT. The laws of byte cells: a read after a write, and that every operation keeps the canonical form. -/

namespace Sys2Proof.Machine

theorem Memory.risingFrom_mono {lo lo' : Nat} (h : lo ≤ lo') :
    ∀ {m : Memory}, m.risingFrom lo' = true → m.risingFrom lo = true
  | [], _ => rfl
  | (k, v) :: m, hm => by
    simp only [Memory.risingFrom, Bool.and_eq_true, decide_eq_true_eq] at hm ⊢
    exact ⟨by omega, hm.2⟩

theorem Memory.lookup_of_risingFrom {a : Nat} :
    ∀ {m : Memory} {lo : Nat}, m.risingFrom lo = true → a < lo → m.lookup a = none
  | [], _, _, _ => rfl
  | (k, v) :: m, lo, hm, ha => by
    simp only [Memory.risingFrom, Bool.and_eq_true, decide_eq_true_eq] at hm
    have hk : k ≠ a := by omega
    simp only [Memory.lookup, if_neg hk]
    exact Memory.lookup_of_risingFrom hm.2 (by omega)

theorem Memory.lookup_insert (a : Nat) (b : Byte) (x : Nat) :
    ∀ (m : Memory), (m.insert a b).lookup x = if a = x then some b else m.lookup x
  | [] => by simp [Memory.insert, Memory.lookup]
  | (k, v) :: m => by
    simp only [Memory.insert]
    split
    · by_cases hx : a = x <;> simp [Memory.lookup, hx]
    · split
      · subst_vars
        by_cases hx : k = x <;> simp [Memory.lookup, hx]
      · simp only [Memory.lookup]
        by_cases hk : k = x
        · have : a ≠ x := by omega
          simp [hk, this]
        · simp only [if_neg hk]
          exact Memory.lookup_insert a b x m

theorem Memory.lookup_erase {a : Nat} (x : Nat) :
    ∀ {m : Memory} {lo : Nat}, m.risingFrom lo = true →
      (m.erase a).lookup x = if a = x then none else m.lookup x
  | [], _, _ => by simp [Memory.erase, Memory.lookup]
  | (k, v) :: m, lo, hm => by
    simp only [Memory.risingFrom, Bool.and_eq_true, decide_eq_true_eq] at hm
    simp only [Memory.erase]
    split
    · rename_i hk
      subst hk
      split
      · rename_i hx
        subst hx
        exact Memory.lookup_of_risingFrom hm.2 (by omega)
      · rename_i hx
        simp [Memory.lookup, hx]
    · rename_i hk
      simp only [Memory.lookup]
      by_cases hx : k = x
      · have : a ≠ x := by omega
        simp [hx, this]
      · simp only [if_neg hx]
        exact Memory.lookup_erase x hm.2

theorem Memory.risingFrom_insert {a : Nat} (b : Byte) :
    ∀ {m : Memory} {lo : Nat}, m.risingFrom lo = true → lo ≤ a → (m.insert a b).risingFrom lo = true
  | [], lo, _, ha => by simp [Memory.insert, Memory.risingFrom, ha]
  | (k, v) :: m, lo, hm, ha => by
    simp only [Memory.risingFrom, Bool.and_eq_true, decide_eq_true_eq] at hm
    simp only [Memory.insert]
    split
    · simp only [Memory.risingFrom, Bool.and_eq_true, decide_eq_true_eq]
      exact ⟨ha, by omega, hm.2⟩
    · split
      · subst_vars
        simp only [Memory.risingFrom, Bool.and_eq_true, decide_eq_true_eq]
        exact ⟨ha, hm.2⟩
      · simp only [Memory.risingFrom, Bool.and_eq_true, decide_eq_true_eq]
        exact ⟨hm.1, Memory.risingFrom_insert b hm.2 (by omega)⟩

theorem Memory.risingFrom_erase {a : Nat} :
    ∀ {m : Memory} {lo : Nat}, m.risingFrom lo = true → (m.erase a).risingFrom lo = true
  | [], _, _ => rfl
  | (k, v) :: m, lo, hm => by
    simp only [Memory.risingFrom, Bool.and_eq_true, decide_eq_true_eq] at hm
    simp only [Memory.erase]
    split
    · exact Memory.risingFrom_mono (by omega) hm.2
    · simp only [Memory.risingFrom, Bool.and_eq_true, decide_eq_true_eq]
      exact ⟨hm.1, Memory.risingFrom_erase hm.2⟩

theorem Memory.mem_insert {a : Nat} {b : Byte} {c : Host.Cell} :
    ∀ {m : Memory}, c ∈ m.insert a b → c = (a, b) ∨ c ∈ m
  | [], h => by simpa [Memory.insert] using h
  | (k, v) :: m, h => by
    simp only [Memory.insert] at h
    split at h
    · simpa using h
    · split at h
      · rcases List.mem_cons.1 h with h | h
        · exact .inl h
        · exact .inr (List.mem_cons_of_mem _ h)
      · rcases List.mem_cons.1 h with h | h
        · exact .inr (by simp [h])
        · rcases Memory.mem_insert h with h | h
          · exact .inl h
          · exact .inr (List.mem_cons_of_mem _ h)

theorem Memory.mem_erase {a : Nat} {c : Host.Cell} :
    ∀ {m : Memory}, c ∈ m.erase a → c ∈ m
  | [], h => by simp [Memory.erase] at h
  | (k, v) :: m, h => by
    simp only [Memory.erase] at h
    split at h
    · exact List.mem_cons_of_mem _ h
    · rcases List.mem_cons.1 h with h | h
      · simp [h]
      · exact List.mem_cons_of_mem _ (Memory.mem_erase h)

theorem Memory.wf_rising {m : Memory} (h : m.wf = true) : m.risingFrom 0 = true :=
  (Bool.and_eq_true _ _ ▸ h).1

/-- A write keeps the canonical form of a data buffer. -/
theorem Memory.wf_write {m : Memory} (h : m.wf = true) (i : Nat) (b : Byte) : (m.write i b).wf = true := by
  simp only [Memory.write]
  split
  · rename_i hi
    simp only [Memory.wf, Bool.and_eq_true, List.all_eq_true] at h ⊢
    split
    · exact ⟨Memory.risingFrom_erase h.1, fun c hc => h.2 c (Memory.mem_erase hc)⟩
    · rename_i hb
      refine ⟨Memory.risingFrom_insert b h.1 (Nat.zero_le i), fun c hc => ?_⟩
      rcases Memory.mem_insert hc with rfl | hc
      · simpa [hi] using hb
      · exact h.2 c hc
  · exact h

/-- `nv_put` keeps the canonical form of the durable store. -/
theorem Memory.storeWf_insert {m : Memory} (h : m.storeWf = true) {k : Nat} (hk : storeKeys.contains k = true)
    (b : Byte) : (m.insert k b).storeWf = true := by
  simp only [Memory.storeWf, Bool.and_eq_true, List.all_eq_true] at h ⊢
  refine ⟨Memory.risingFrom_insert b h.1 (Nat.zero_le k), fun c hc => ?_⟩
  rcases Memory.mem_insert hc with rfl | hc
  · exact hk
  · exact h.2 c hc

/-- What a data buffer reads as after a write, at every index. -/
theorem Memory.read_write {m : Memory} (h : m.wf = true) (i : Nat) (b : Byte) (j : Nat) :
    (m.write i b).read j = if i = j ∧ i < Config.dataCap then b else m.read j := by
  simp only [Memory.write, Memory.read]
  split
  · rename_i hi
    split
    · rename_i hb
      rw [Memory.lookup_erase j (Memory.wf_rising h)]
      by_cases hj : i = j <;> simp [hj, hb]
      omega
    · rw [Memory.lookup_insert]
      by_cases hj : i = j <;> simp [hj]
      omega
  · rename_i hi
    simp [hi]

@[simp] theorem Memory.read_nil (i : Nat) : Memory.read [] i = 0 := rfl

@[simp] theorem Memory.wf_nil : Memory.wf [] = true := rfl

@[simp] theorem Memory.storeWf_nil : Memory.storeWf [] = true := rfl

end Sys2Proof.Machine
end

