-- ==== Sys2Proof/Laws/State.lean ====
section
/-! SUPPORT. One lemma for each field of State under each update, true by rfl: no later proof unfolds an update. -/

namespace Sys2Proof.Machine

/-! ### `State.emit` -/

@[simp] theorem State.emit_params (s : State) (o : Output) : (s.emit o).params = s.params := rfl
@[simp] theorem State.emit_ports (s : State) (o : Output) : (s.emit o).ports = s.ports := rfl
@[simp] theorem State.emit_vrt (s : State) (o : Output) : (s.emit o).vrt = s.vrt := rfl
@[simp] theorem State.emit_store (s : State) (o : Output) : (s.emit o).store = s.store := rfl
@[simp] theorem State.emit_hand (s : State) (o : Output) : (s.emit o).hand = s.hand := rfl
@[simp] theorem State.emit_bootPending (s : State) (o : Output) : (s.emit o).bootPending = s.bootPending := rfl
@[simp] theorem State.emit_inputs (s : State) (o : Output) : (s.emit o).inputs = s.inputs := rfl
@[simp] theorem State.emit_sensorAnswers (s : State) (o : Output) : (s.emit o).sensorAnswers = s.sensorAnswers := rfl
@[simp] theorem State.emit_conflictAnswers (s : State) (o : Output) : (s.emit o).conflictAnswers = s.conflictAnswers := rfl
@[simp] theorem State.emit_draws (s : State) (o : Output) : (s.emit o).draws = s.draws := rfl
@[simp] theorem State.emit_outputs (s : State) (o : Output) : (s.emit o).outputs = s.outputs ++ [o] := rfl

/-! ### `State.setPort` -/

@[simp] theorem State.setPort_params (s : State) (p : Nat) (q : Port) : (s.setPort p q).params = s.params := rfl
@[simp] theorem State.setPort_ports (s : State) (p : Nat) (q : Port) : (s.setPort p q).ports = s.ports.set p q := rfl
@[simp] theorem State.setPort_vrt (s : State) (p : Nat) (q : Port) : (s.setPort p q).vrt = s.vrt := rfl
@[simp] theorem State.setPort_store (s : State) (p : Nat) (q : Port) : (s.setPort p q).store = s.store := rfl
@[simp] theorem State.setPort_hand (s : State) (p : Nat) (q : Port) : (s.setPort p q).hand = s.hand := rfl
@[simp] theorem State.setPort_bootPending (s : State) (p : Nat) (q : Port) : (s.setPort p q).bootPending = s.bootPending := rfl
@[simp] theorem State.setPort_inputs (s : State) (p : Nat) (q : Port) : (s.setPort p q).inputs = s.inputs := rfl
@[simp] theorem State.setPort_sensorAnswers (s : State) (p : Nat) (q : Port) : (s.setPort p q).sensorAnswers = s.sensorAnswers := rfl
@[simp] theorem State.setPort_conflictAnswers (s : State) (p : Nat) (q : Port) : (s.setPort p q).conflictAnswers = s.conflictAnswers := rfl
@[simp] theorem State.setPort_draws (s : State) (p : Nat) (q : Port) : (s.setPort p q).draws = s.draws := rfl
@[simp] theorem State.setPort_outputs (s : State) (p : Nat) (q : Port) : (s.setPort p q).outputs = s.outputs := rfl

/-! ### `State.raise` -/

@[simp] theorem State.raise_params (s : State) (e : ErrorKind) : (s.raise e).params = s.params := rfl
@[simp] theorem State.raise_ports (s : State) (e : ErrorKind) : (s.raise e).ports = s.ports := rfl
@[simp] theorem State.raise_vrt (s : State) (e : ErrorKind) : (s.raise e).vrt = s.vrt := rfl
@[simp] theorem State.raise_store (s : State) (e : ErrorKind) : (s.raise e).store = s.store := rfl
@[simp] theorem State.raise_hand (s : State) (e : ErrorKind) : (s.raise e).hand = s.hand := rfl
@[simp] theorem State.raise_bootPending (s : State) (e : ErrorKind) : (s.raise e).bootPending = s.bootPending := rfl
@[simp] theorem State.raise_inputs (s : State) (e : ErrorKind) : (s.raise e).inputs = s.inputs := rfl
@[simp] theorem State.raise_sensorAnswers (s : State) (e : ErrorKind) : (s.raise e).sensorAnswers = s.sensorAnswers := rfl
@[simp] theorem State.raise_conflictAnswers (s : State) (e : ErrorKind) : (s.raise e).conflictAnswers = s.conflictAnswers := rfl
@[simp] theorem State.raise_draws (s : State) (e : ErrorKind) : (s.raise e).draws = s.draws := rfl
@[simp] theorem State.raise_outputs (s : State) (e : ErrorKind) : (s.raise e).outputs = s.outputs ++ [.diag s.hand e] := rfl

/-! ### `State.hwWrite` -/

@[simp] theorem State.hwWrite_params (s : State) (a v : Byte) : (s.hwWrite a v).params = s.params := rfl
@[simp] theorem State.hwWrite_ports (s : State) (a v : Byte) : (s.hwWrite a v).ports = s.ports := rfl
@[simp] theorem State.hwWrite_vrt (s : State) (a v : Byte) : (s.hwWrite a v).vrt = s.vrt := rfl
@[simp] theorem State.hwWrite_store (s : State) (a v : Byte) : (s.hwWrite a v).store = s.store := rfl
@[simp] theorem State.hwWrite_hand (s : State) (a v : Byte) : (s.hwWrite a v).hand = s.hand := rfl
@[simp] theorem State.hwWrite_bootPending (s : State) (a v : Byte) : (s.hwWrite a v).bootPending = s.bootPending := rfl
@[simp] theorem State.hwWrite_inputs (s : State) (a v : Byte) : (s.hwWrite a v).inputs = s.inputs := rfl
@[simp] theorem State.hwWrite_sensorAnswers (s : State) (a v : Byte) : (s.hwWrite a v).sensorAnswers = s.sensorAnswers := rfl
@[simp] theorem State.hwWrite_conflictAnswers (s : State) (a v : Byte) : (s.hwWrite a v).conflictAnswers = s.conflictAnswers := rfl
@[simp] theorem State.hwWrite_draws (s : State) (a v : Byte) : (s.hwWrite a v).draws = s.draws := rfl
@[simp] theorem State.hwWrite_outputs (s : State) (a v : Byte) : (s.hwWrite a v).outputs = s.outputs ++ [.hwWrite a v] := rfl

/-! ### `State.setPoll` -/

@[simp] theorem State.setPoll_params (s : State) (f : Byte) : (s.setPoll f).params = s.params := rfl
@[simp] theorem State.setPoll_ports (s : State) (f : Byte) : (s.setPoll f).ports = s.ports := rfl
@[simp] theorem State.setPoll_vrt (s : State) (f : Byte) : (s.setPoll f).vrt = s.vrt := rfl
@[simp] theorem State.setPoll_store (s : State) (f : Byte) : (s.setPoll f).store = s.store := rfl
@[simp] theorem State.setPoll_hand (s : State) (f : Byte) : (s.setPoll f).hand = s.hand := rfl
@[simp] theorem State.setPoll_bootPending (s : State) (f : Byte) : (s.setPoll f).bootPending = s.bootPending := rfl
@[simp] theorem State.setPoll_inputs (s : State) (f : Byte) : (s.setPoll f).inputs = s.inputs := rfl
@[simp] theorem State.setPoll_sensorAnswers (s : State) (f : Byte) : (s.setPoll f).sensorAnswers = s.sensorAnswers := rfl
@[simp] theorem State.setPoll_conflictAnswers (s : State) (f : Byte) : (s.setPoll f).conflictAnswers = s.conflictAnswers := rfl
@[simp] theorem State.setPoll_draws (s : State) (f : Byte) : (s.setPoll f).draws = s.draws := rfl
@[simp] theorem State.setPoll_outputs (s : State) (f : Byte) : (s.setPoll f).outputs = s.outputs ++ [.setPoll f] := rfl

/-! ### `State.nvPut` -/

@[simp] theorem State.nvPut_params (s : State) (k v : Byte) : (s.nvPut k v).params = s.params := rfl
@[simp] theorem State.nvPut_ports (s : State) (k v : Byte) : (s.nvPut k v).ports = s.ports := rfl
@[simp] theorem State.nvPut_vrt (s : State) (k v : Byte) : (s.nvPut k v).vrt = s.vrt := rfl
@[simp] theorem State.nvPut_store (s : State) (k v : Byte) : (s.nvPut k v).store = s.store.insert k.toNat v := rfl
@[simp] theorem State.nvPut_hand (s : State) (k v : Byte) : (s.nvPut k v).hand = s.hand := rfl
@[simp] theorem State.nvPut_bootPending (s : State) (k v : Byte) : (s.nvPut k v).bootPending = s.bootPending := rfl
@[simp] theorem State.nvPut_inputs (s : State) (k v : Byte) : (s.nvPut k v).inputs = s.inputs := rfl
@[simp] theorem State.nvPut_sensorAnswers (s : State) (k v : Byte) : (s.nvPut k v).sensorAnswers = s.sensorAnswers := rfl
@[simp] theorem State.nvPut_conflictAnswers (s : State) (k v : Byte) : (s.nvPut k v).conflictAnswers = s.conflictAnswers := rfl
@[simp] theorem State.nvPut_draws (s : State) (k v : Byte) : (s.nvPut k v).draws = s.draws := rfl
@[simp] theorem State.nvPut_outputs (s : State) (k v : Byte) : (s.nvPut k v).outputs = s.outputs ++ [.nvPut k v] := rfl

/-! ### `State.buildAck` -/

@[simp] theorem State.buildAck_params (s : State) (c : Bytes4) (m : List Byte) : (s.buildAck c m).params = s.params := rfl
@[simp] theorem State.buildAck_ports (s : State) (c : Bytes4) (m : List Byte) : (s.buildAck c m).ports = s.ports.set s.hand { s.port s.hand with
      ack := ackFrame s.params.ackFiller c m, ackLen := BitVec.ofNat 11 (16 + m.length) } := rfl
@[simp] theorem State.buildAck_vrt (s : State) (c : Bytes4) (m : List Byte) : (s.buildAck c m).vrt = s.vrt := rfl
@[simp] theorem State.buildAck_store (s : State) (c : Bytes4) (m : List Byte) : (s.buildAck c m).store = s.store := rfl
@[simp] theorem State.buildAck_hand (s : State) (c : Bytes4) (m : List Byte) : (s.buildAck c m).hand = s.hand := rfl
@[simp] theorem State.buildAck_bootPending (s : State) (c : Bytes4) (m : List Byte) : (s.buildAck c m).bootPending = s.bootPending := rfl
@[simp] theorem State.buildAck_inputs (s : State) (c : Bytes4) (m : List Byte) : (s.buildAck c m).inputs = s.inputs := rfl
@[simp] theorem State.buildAck_sensorAnswers (s : State) (c : Bytes4) (m : List Byte) : (s.buildAck c m).sensorAnswers = s.sensorAnswers := rfl
@[simp] theorem State.buildAck_conflictAnswers (s : State) (c : Bytes4) (m : List Byte) : (s.buildAck c m).conflictAnswers = s.conflictAnswers := rfl
@[simp] theorem State.buildAck_draws (s : State) (c : Bytes4) (m : List Byte) : (s.buildAck c m).draws = s.draws := rfl
@[simp] theorem State.buildAck_outputs (s : State) (c : Bytes4) (m : List Byte) : (s.buildAck c m).outputs = s.outputs ++ [.emitAck s.hand (ackFrame s.params.ackFiller c m)] := rfl

/-! ### `State.bootLoad` -/

@[simp] theorem State.bootLoad_params (s : State) : s.bootLoad.params = s.params := rfl
@[simp] theorem State.bootLoad_ports (s : State) : s.bootLoad.ports = s.ports := rfl
@[simp] theorem State.bootLoad_vrt (s : State) : s.bootLoad.vrt = bootVrt s := rfl
@[simp] theorem State.bootLoad_store (s : State) : s.bootLoad.store = s.store := rfl
@[simp] theorem State.bootLoad_hand (s : State) : s.bootLoad.hand = s.hand := rfl
@[simp] theorem State.bootLoad_bootPending (s : State) : s.bootLoad.bootPending = false := rfl
@[simp] theorem State.bootLoad_inputs (s : State) : s.bootLoad.inputs = s.inputs := rfl
@[simp] theorem State.bootLoad_sensorAnswers (s : State) : s.bootLoad.sensorAnswers = s.sensorAnswers := rfl
@[simp] theorem State.bootLoad_conflictAnswers (s : State) : s.bootLoad.conflictAnswers = s.conflictAnswers := rfl
@[simp] theorem State.bootLoad_draws (s : State) : s.bootLoad.draws = s.draws := rfl
@[simp] theorem State.bootLoad_outputs (s : State) : s.bootLoad.outputs = s.outputs := rfl

/-! ### `State.hardReset` -/

@[simp] theorem State.hardReset_params (s : State) : s.hardReset.params = s.params := rfl
@[simp] theorem State.hardReset_ports (s : State) : s.hardReset.ports = s.ports.map fun _ => Port.reset := rfl
@[simp] theorem State.hardReset_vrt (s : State) : s.hardReset.vrt = .reset s.params := rfl
@[simp] theorem State.hardReset_store (s : State) : s.hardReset.store = s.store := rfl
@[simp] theorem State.hardReset_hand (s : State) : s.hardReset.hand = 0 := rfl
@[simp] theorem State.hardReset_bootPending (s : State) : s.hardReset.bootPending = true := rfl
@[simp] theorem State.hardReset_inputs (s : State) : s.hardReset.inputs = s.inputs := rfl
@[simp] theorem State.hardReset_sensorAnswers (s : State) : s.hardReset.sensorAnswers = s.sensorAnswers := rfl
@[simp] theorem State.hardReset_conflictAnswers (s : State) : s.hardReset.conflictAnswers = s.conflictAnswers := rfl
@[simp] theorem State.hardReset_draws (s : State) : s.hardReset.draws = s.draws := rfl
@[simp] theorem State.hardReset_outputs (s : State) : s.hardReset.outputs = s.outputs := rfl

/-! ### `Port.reInit` -/

@[simp] theorem Port.reInit_ps (q : Port) : q.reInit.ps = q.ps := rfl
@[simp] theorem Port.reInit_cnt (q : Port) : q.reInit.cnt = 0 := rfl
@[simp] theorem Port.reInit_lenField (q : Port) : q.reInit.lenField = .zero := rfl
@[simp] theorem Port.reInit_declaredLength (q : Port) : q.reInit.declaredLength = 0 := rfl
@[simp] theorem Port.reInit_cmd (q : Port) : q.reInit.cmd = .zero := rfl
@[simp] theorem Port.reInit_data (q : Port) : q.reInit.data = [] := rfl
@[simp] theorem Port.reInit_dataLen (q : Port) : q.reInit.dataLen = 0 := rfl
@[simp] theorem Port.reInit_csField (q : Port) : q.reInit.csField = .zero := rfl
@[simp] theorem Port.reInit_acc (q : Port) : q.reInit.acc = 0 := rfl
@[simp] theorem Port.reInit_ack (q : Port) : q.reInit.ack = q.ack := rfl
@[simp] theorem Port.reInit_ackLen (q : Port) : q.reInit.ackLen = q.ackLen := rfl

end Sys2Proof.Machine
end

