-- ==== Sys2Proof/Laws/Ops.lean ====
section
/-! SUPPORT. One lemma for each shared operation that says once everything it can do: the port in hand, the external
collaborators, the broker, the ACK encoder. Callers cite these and do not unfold the operation. -/

namespace Sys2Proof.Machine

/-! ### Ports -/

theorem State.port_setPort_self {s : State} {p : Nat} (h : p < s.ports.length) (q : Port) :
    (s.setPort p q).port p = q := by
  simp [State.port, State.setPort, List.getD, h]

theorem State.port_setPort_of_ne {s : State} {p p' : Nat} (h : p' ≠ p) (q : Port) :
    (s.setPort p q).port p' = s.port p' := by
  simp [State.port, State.setPort, List.getD, List.getElem?_set_ne (Ne.symm h)]

theorem State.port_mem {s : State} {p : Nat} (h : p < s.ports.length) : s.port p ∈ s.ports := by
  simp [State.port, List.getD, h]

/-- A port of the list after one port was written is the written one or an old one. -/
theorem State.mem_setPort {s : State} {p : Nat} {q x : Port} (h : x ∈ (s.setPort p q).ports) :
    x = q ∨ x ∈ s.ports := by
  rcases List.mem_or_eq_of_mem_set h with h | h
  · exact .inr h
  · exact .inl h

/-! ### The external collaborators -/

/-- What one `hw_read` does: it takes an answer or draws a free value, and records the call. -/
theorem State.hwRead_eq (s : State) (a : Byte) :
    (∃ v rest, s.sensorAnswers = v :: rest ∧
      s.hwRead a = (v, { s with sensorAnswers := rest, outputs := s.outputs ++ [.hwRead a] })) ∨
    (s.sensorAnswers = [] ∧
      s.hwRead a = (Config.sensorDraw s.draws,
        { s with draws := s.draws + 1, outputs := s.outputs ++ [.hwRead a] })) := by
  unfold State.hwRead
  split
  · rename_i v rest h
    exact .inl ⟨v, rest, h, rfl⟩
  · rename_i h
    exact .inr ⟨h, rfl⟩

/-- What one sample of `stream_conflict` does: it takes an answer or draws a free value. -/
theorem State.streamConflict_eq (s : State) :
    (∃ v rest, s.conflictAnswers = v :: rest ∧ s.streamConflict = (v, { s with conflictAnswers := rest })) ∨
    (s.conflictAnswers = [] ∧
      s.streamConflict = (Config.conflictDraw s.draws, { s with draws := s.draws + 1 })) := by
  unfold State.streamConflict
  split
  · rename_i v rest h
    exact .inl ⟨v, rest, h, rfl⟩
  · rename_i h
    exact .inr ⟨h, rfl⟩

/-! ### The broker -/

theorem analysisLo_toNat : Config.analysisLo.toNat = 0xC0 := rfl

theorem analysisHi_toNat : Config.analysisHi.toNat = 0xD5 := rfl

theorem versionLo_toNat : Config.versionLo.toNat = 0xB2 := rfl

theorem versionHi_toNat : Config.versionHi.toNat = 0xB3 := rfl

/-- The class of an address by its number (41_register_broker.md R171). -/
theorem classify_eq (a : Byte) :
    classify a =
      if 0xC0 ≤ a.toNat ∧ a.toNat ≤ 0xD5 then .analysis
      else if 0xB2 ≤ a.toNat ∧ a.toNat ≤ 0xB3 then .version
      else .hardware := by
  simp only [classify, BitVec.le_def, analysisLo_toNat, analysisHi_toNat, versionLo_toNat, versionHi_toNat]

theorem classify_analysis {a : Byte} (h : classify a = .analysis) : 0xC0 ≤ a.toNat ∧ a.toNat ≤ 0xD5 := by
  rw [classify_eq] at h
  split at h
  · assumption
  · split at h <;> cases h

/-- Every Analysis address has its register (10_state.md R33). -/
theorem regAt_isSome {a : Byte} (h : classify a = .analysis) : ∃ r, regAt a = some r := by
  have hc := classify_analysis h
  have hle : Config.analysisLo ≤ a := by
    rw [BitVec.le_def, analysisLo_toNat]; exact hc.1
  have hlt : a.toNat - Config.analysisLo.toNat < analysisMap.length := by
    rw [analysisLo_toNat, show analysisMap.length = 22 from rfl]; omega
  exact ⟨analysisMap[a.toNat - Config.analysisLo.toNat], by simp [regAt, hle, hlt]⟩

/-- A register that accepts writes: one of the ten coordinates (10_state.md R40). -/
def Reg.writable : Reg → Bool
  | .xsplit => true
  | .ysplit => true
  | .burnX _ => true
  | .burnY _ => true
  | .max _ => false
  | .center _ => false
  | .burnT _ => false

theorem coordinate_isSome (t : Vrt) (r : Reg) : (Vrt.coordinate t r).isSome = r.writable := by
  cases r <;> rfl

/-- The address of a VRT register (10_state.md R33). -/
def Reg.addr : Reg → Byte
  | .xsplit => 0xC0
  | .ysplit => 0xC1
  | .max q => match q with
    | .a => 0xC2
    | .b => 0xC4
    | .c => 0xC6
    | .d => 0xC8
  | .center q => match q with
    | .a => 0xC3
    | .b => 0xC5
    | .c => 0xC7
    | .d => 0xC9
  | .burnX q => match q with
    | .a => 0xCA
    | .b => 0xCC
    | .c => 0xCE
    | .d => 0xD0
  | .burnY q => match q with
    | .a => 0xCB
    | .b => 0xCD
    | .c => 0xCF
    | .d => 0xD1
  | .burnT q => match q with
    | .a => 0xD2
    | .b => 0xD3
    | .c => 0xD4
    | .d => 0xD5

@[simp] theorem regAt_addr (r : Reg) : regAt r.addr = some r := by
  cases r with
  | xsplit => rfl
  | ysplit => rfl
  | max q => cases q <;> rfl
  | center q => cases q <;> rfl
  | burnX q => cases q <;> rfl
  | burnY q => cases q <;> rfl
  | burnT q => cases q <;> rfl

@[simp] theorem classify_addr (r : Reg) : classify r.addr = .analysis := by
  cases r with
  | xsplit => rfl
  | ysplit => rfl
  | max q => cases q <;> rfl
  | center q => cases q <;> rfl
  | burnX q => cases q <;> rfl
  | burnY q => cases q <;> rfl
  | burnT q => cases q <;> rfl

/-- Each register stands at its own address and at no other. -/
theorem regAt_eq_some {a : Byte} {r : Reg} : regAt a = some r ↔ a = r.addr := by
  have key : ∀ x : Fin 22, (analysisMap[x.val]?).all (fun r => r.addr.toNat == 0xC0 + x.val) = true := by decide
  constructor
  · intro h
    unfold regAt at h
    split at h
    · rename_i hle
      rw [BitVec.le_def, analysisLo_toNat] at hle
      rw [analysisLo_toNat] at h
      have hlt : a.toNat - 0xC0 < 22 := (List.getElem?_eq_some_iff.1 h).1
      have hx := key ⟨a.toNat - 0xC0, hlt⟩
      rw [show (⟨a.toNat - 0xC0, hlt⟩ : Fin 22).val = a.toNat - 0xC0 from rfl, h] at hx
      simp only [Option.all_some, beq_iff_eq] at hx
      exact BitVec.eq_of_toNat_eq (by omega)
    · cases h
  · rintro rfl
    exact regAt_addr r

/-- The ten keys of the durable store are the addresses of the registers that accept writes. -/
theorem addr_mem_storeKeys (r : Reg) : r.addr.toNat ∈ storeKeys ↔ r.writable = true := by
  cases r with
  | xsplit => decide
  | ysplit => decide
  | max q => cases q <;> decide
  | center q => cases q <;> decide
  | burnX q => cases q <;> decide
  | burnY q => cases q <;> decide
  | burnT q => cases q <;> decide

theorem mem_storeKeys {a : Byte} : a.toNat ∈ storeKeys ↔ ∃ r : Reg, a = r.addr ∧ r.writable = true := by
  constructor
  · intro h
    have hc : classify a = .analysis := by
      have key : ∀ k ∈ storeKeys, 0xC0 ≤ k ∧ k ≤ 0xD5 := by decide
      rw [classify_eq, if_pos (key _ h)]
    obtain ⟨r, hr⟩ := regAt_isSome hc
    obtain rfl := regAt_eq_some.1 hr
    exact ⟨r, rfl, (addr_mem_storeKeys r).1 h⟩
  · rintro ⟨r, rfl, hw⟩
    exact (addr_mem_storeKeys r).2 hw

/-- The keys a write can persist under are the ten of the durable store. -/
theorem storeKeys_of_coordinate {a : Byte} {r : Reg} {t : Vrt} {v : Byte} (h : regAt a = some r)
    (hc : Vrt.coordinate t r = some v) : storeKeys.contains a.toNat = true := by
  have hw : r.writable = true := by rw [← coordinate_isSome t r, hc]; rfl
  rw [List.contains_iff_mem]
  exact mem_storeKeys.2 ⟨r, regAt_eq_some.1 h, hw⟩

/-- What a broker write of a VRT register is, by whether the register accepts writes. -/
theorem brokerWrite_addr (s : State) (r : Reg) (v : Byte) :
    brokerWrite s r.addr v = writeAnalysis s r.addr r v := by
  unfold brokerWrite
  rw [classify_addr, regAt_addr]

/-- A computed register is not written. -/
theorem writeReg_of_not_writable {r : Reg} (h : r.writable = false) (g : Params) (t : Vrt) (v : Byte) :
    Vrt.writeReg g t r v = t := by
  cases r <;> first | rfl | cases h

/-- A write to one VRT register leaves every other as it was. -/
theorem readReg_writeReg_of_ne {r r' : Reg} (h : r' ≠ r) (g : Params) (t : Vrt) (v : Byte) :
    (Vrt.writeReg g t r v).readReg r' = t.readReg r' := by
  cases r with
  | xsplit => cases r' <;> first | rfl | exact absurd rfl h
  | ysplit => cases r' <;> first | rfl | exact absurd rfl h
  | max q => rfl
  | center q => rfl
  | burnT q => rfl
  | burnX q =>
    cases r' with
    | burnX q' => cases q <;> cases q' <;> first | rfl | exact absurd rfl h
    | _ => rfl
  | burnY q =>
    cases r' with
    | burnY q' => cases q <;> cases q' <;> first | rfl | exact absurd rfl h
    | _ => rfl

/-- A write to a VRT register either changes nothing, or stores one clamped coordinate and persists it. -/
theorem writeAnalysis_eq (s : State) (a : Byte) (r : Reg) (v : Byte) :
    (writeAnalysis s a r v = (.ignored, s)) ∨
    (∃ b, Vrt.coordinate (Vrt.writeReg s.params s.vrt r v) r = some b ∧
      writeAnalysis s a r v = (.ok, ({ s with vrt := Vrt.writeReg s.params s.vrt r v } : State).nvPut a b)) := by
  unfold writeAnalysis
  dsimp only
  split
  · rename_i b hb
    exact .inr ⟨b, hb, rfl⟩
  · exact .inl rfl

/-- Everything a broker write can do (41_register_broker.md R177). -/
theorem brokerWrite_eq (s : State) (a v : Byte) :
    (classify a = .hardware ∧ brokerWrite s a v = (.ok, s.hwWrite a v)) ∨
    (brokerWrite s a v = (.ignored, s)) ∨
    (∃ r b, classify a = .analysis ∧ regAt a = some r ∧ Vrt.coordinate (Vrt.writeReg s.params s.vrt r v) r = some b ∧
      brokerWrite s a v = (.ok, ({ s with vrt := Vrt.writeReg s.params s.vrt r v } : State).nvPut a b)) := by
  unfold brokerWrite
  cases hc : classify a with
  | hardware => exact .inl ⟨rfl, rfl⟩
  | version => exact .inr (.inl rfl)
  | analysis =>
    obtain ⟨r, hr⟩ := regAt_isSome hc
    rw [hr]
    dsimp only
    rcases writeAnalysis_eq s a r v with h | ⟨b, hb, h⟩
    · exact .inr (.inl h)
    · exact .inr (.inr ⟨r, b, rfl, rfl, hb, h⟩)

theorem SameButReads.refl (s : State) : SameButReads s s := ⟨rfl, rfl, rfl, rfl, rfl, rfl, rfl, rfl⟩

theorem SameButReads.trans {s t u : State} (h : SameButReads s t) (h' : SameButReads t u) : SameButReads s u :=
  ⟨h'.params.trans h.params, h'.ports.trans h.ports, h'.vrt.trans h.vrt, h'.store.trans h.store,
    h'.hand.trans h.hand, h'.bootPending.trans h.bootPending, h'.inputs.trans h.inputs,
    h'.conflictAnswers.trans h.conflictAnswers⟩

/-- A read changes no block state (41_register_broker.md R174). -/
theorem brokerRead_same (s : State) (a : Byte) : SameButReads s (brokerRead s a).2 := by
  unfold brokerRead
  split
  · split <;> exact SameButReads.refl s
  · exact ⟨rfl, rfl, rfl, rfl, rfl, rfl, rfl, rfl⟩
  · rcases State.hwRead_eq s a with ⟨v, rest, -, h⟩ | ⟨-, h⟩ <;> rw [h] <;>
      exact ⟨rfl, rfl, rfl, rfl, rfl, rfl, rfl, rfl⟩

theorem valueText_same (s : State) (a : Byte) : SameButReads s (valueText s a).2 := brokerRead_same s a

theorem readSequence_same (s : State) (l : List Byte) : SameButReads s (readSequence s l).2 := by
  induction l generalizing s with
  | nil => exact SameButReads.refl s
  | cons a l ih => exact (valueText_same s a).trans (ih _)

/-! ### Groups, sides and clamps -/

theorem PerQuad.get_set {α : Type} (t : PerQuad α) (q q' : Quadrant) (v : α) :
    (t.set q v).get q' = if q = q' then v else t.get q' := by
  cases q <;> cases q' <;> rfl

theorem PerQuad.get_tabulate {α : Type} (f : Quadrant → α) (q : Quadrant) : (PerQuad.tabulate f).get q = f q := by
  cases q <;> rfl

/-- The frame's width is in 2..256 (00_scope.md R7). -/
theorem frameW_bounds (g : Params) : 2 ≤ g.frameW ∧ g.frameW ≤ 256 := by
  have := g.extraW.isLt
  unfold Params.frameW
  omega

/-- The frame's height is in 2..256 (00_scope.md R7). -/
theorem frameH_bounds (g : Params) : 2 ≤ g.frameH ∧ g.frameH ≤ 256 := by
  have := g.extraH.isLt
  unfold Params.frameH
  omega

/-- A byte clamped to ordered bounds lies between them, and stays what it was if it did (41_register_broker.md R184). -/
theorem clampByte_spec (v : Byte) {lo hi : Nat} (h : lo ≤ hi) (h' : hi ≤ 255) :
    lo ≤ (clampByte v lo hi).toNat ∧ (clampByte v lo hi).toNat ≤ hi ∧
      (lo ≤ v.toNat → v.toNat ≤ hi → clampByte v lo hi = v) := by
  have hv := v.isLt
  refine ⟨?_, ?_, fun h1 h2 => ?_⟩
  · unfold clampByte clamp
    rw [BitVec.toNat_ofNat]
    split
    · omega
    · split <;> omega
  · unfold clampByte clamp
    rw [BitVec.toNat_ofNat]
    split
    · omega
    · split <;> omega
  · unfold clampByte clamp
    rw [if_neg (by omega), if_neg (by omega), BitVec.ofNat_toNat, BitVec.setWidth_eq]

/-! ### The ACK encoder -/

@[simp] theorem ackBody_length (c : Bytes4) (m : List Byte) : (ackBody c m).length = 8 + m.length := by
  simp [ackBody]; omega

@[simp] theorem ackFrame_length (f : Byte) (c : Bytes4) (m : List Byte) : (ackFrame f c m).length = 16 + m.length := by
  simp [ackFrame]; omega

end Sys2Proof.Machine
end

