-- ==== Sys2Proof/Laws/Parser.lean ====
section
/-! SUPPORT. What one byte does to a port (`feed_cases`), and how feeding a byte string splits. -/

namespace Sys2Proof.Machine

/-- Everything a `Feed` step can do to its port (40_frame_parser.md R132 to R137). -/
inductive FeedCase (q : Port) (b : Byte) : Port × FeedResult → Prop
  | skip (hs : q.ps = .seekStart) (hb : b ≠ Config.start) : FeedCase q b (q, .cont)
  | start (hs : q.ps = .seekStart) (hb : b = Config.start) :
      FeedCase q b ({ q.reInit with ps := .readLength }, .cont)
  | length (hs : q.ps = .readLength) (hc : q.cnt.toNat < 3) :
      FeedCase q b
        ({ q with lenField := q.lenField.set q.cnt.toNat b, acc := addByte q.acc b, cnt := q.cnt + 1 }, .cont)
  | rejected (hs : q.ps = .readLength) (hc : 3 ≤ q.cnt.toNat)
      (hr : lengthRejected (lenValue (q.lenField.set 3 b)) = true) :
      FeedCase q b
        ({ q with lenField := q.lenField.set 3 b, acc := addByte q.acc b,
                  declaredLength := lenValue (q.lenField.set 3 b), cnt := 0, ps := .seekStart }, .reset)
  | accepted (hs : q.ps = .readLength) (hc : 3 ≤ q.cnt.toNat)
      (hr : lengthRejected (lenValue (q.lenField.set 3 b)) = false) :
      FeedCase q b
        ({ q with lenField := q.lenField.set 3 b, acc := addByte q.acc b,
                  declaredLength := lenValue (q.lenField.set 3 b), cnt := 0, ps := .readBody }, .cont)
  | body (hs : q.ps = .readBody) (hn : (q.cnt + 1).toNat ≠ bodyLimit q.declaredLength) :
      FeedCase q b (storeBody q b, .cont)
  | bodyEnd (hs : q.ps = .readBody) (hn : (q.cnt + 1).toNat = bodyLimit q.declaredLength) :
      FeedCase q b ({ storeBody q b with ps := .readChecksum, cnt := 0 }, .cont)
  | checksum (hs : q.ps = .readChecksum) (hc : q.cnt.toNat < 3) :
      FeedCase q b ({ q with csField := q.csField.set q.cnt.toNat b, cnt := q.cnt + 1 }, .cont)
  | complete (hs : q.ps = .readChecksum) (hc : 3 ≤ q.cnt.toNat) :
      FeedCase q b
        ({ q with csField := q.csField.set 3 b, cnt := 0, ps := .seekStart },
          verdict (csumVerify q.acc (q.csField.set 3 b)))

@[simp] theorem storeBody_ps (q : Port) (b : Byte) : (storeBody q b).ps = q.ps := by
  unfold storeBody; dsimp only; split <;> rfl

@[simp] theorem storeBody_cnt (q : Port) (b : Byte) : (storeBody q b).cnt = q.cnt + 1 := by
  unfold storeBody; dsimp only; split <;> rfl

@[simp] theorem storeBody_lenField (q : Port) (b : Byte) : (storeBody q b).lenField = q.lenField := by
  unfold storeBody; dsimp only; split <;> rfl

@[simp] theorem storeBody_declaredLength (q : Port) (b : Byte) :
    (storeBody q b).declaredLength = q.declaredLength := by
  unfold storeBody; dsimp only; split <;> rfl

@[simp] theorem storeBody_csField (q : Port) (b : Byte) : (storeBody q b).csField = q.csField := by
  unfold storeBody; dsimp only; split <;> rfl

@[simp] theorem storeBody_acc (q : Port) (b : Byte) : (storeBody q b).acc = addByte q.acc b := by
  unfold storeBody; dsimp only; split <;> rfl

@[simp] theorem storeBody_ack (q : Port) (b : Byte) : (storeBody q b).ack = q.ack := by
  unfold storeBody; dsimp only; split <;> rfl

@[simp] theorem storeBody_ackLen (q : Port) (b : Byte) : (storeBody q b).ackLen = q.ackLen := by
  unfold storeBody; dsimp only; split <;> rfl

theorem storeBody_cmd (q : Port) (b : Byte) :
    (storeBody q b).cmd = if q.cnt.toNat < 4 then q.cmd.set q.cnt.toNat b else q.cmd := by
  unfold storeBody; dsimp only; split <;> rfl

theorem storeBody_data (q : Port) (b : Byte) :
    (storeBody q b).data = if q.cnt.toNat < 4 then q.data else q.data.write (q.cnt.toNat - 4) b := by
  unfold storeBody; dsimp only; split <;> rfl

theorem storeBody_dataLen (q : Port) (b : Byte) :
    (storeBody q b).dataLen = if q.cnt.toNat < 4 then q.dataLen else q.cnt - 3 := by
  unfold storeBody; dsimp only; split <;> rfl

/-- The case a `Feed` step is in. -/
theorem feed_cases (q : Port) (b : Byte) : FeedCase q b (feed q b) := by
  unfold feed
  split
  · rename_i hs
    unfold feedSeekStart
    split
    · exact .start hs ‹_›
    · exact .skip hs ‹_›
  · rename_i hs
    unfold feedReadLength
    split
    · exact .length hs ‹_›
    · have hc : 3 ≤ q.cnt.toNat := by omega
      dsimp only
      split
      · exact .rejected hs hc ‹_›
      · rename_i _ hr
        exact .accepted hs hc (Bool.eq_false_iff.2 hr)
  · rename_i hs
    unfold feedReadBody
    dsimp only
    split
    · rename_i hn
      rw [storeBody_cnt, storeBody_declaredLength] at hn
      exact .bodyEnd hs hn
    · rename_i hn
      rw [storeBody_cnt, storeBody_declaredLength] at hn
      exact .body hs hn
  · rename_i hs
    unfold feedReadChecksum
    split
    · exact .checksum hs ‹_›
    · exact .complete hs (by omega)

@[simp] theorem feedAll_nil (q : Port) : feedAll q [] = (q, []) := rfl

theorem feedAll_cons (q : Port) (b : Byte) (w : List Byte) :
    feedAll q (b :: w) = ((feedAll (feed q b).1 w).1, (feed q b).2 :: (feedAll (feed q b).1 w).2) := rfl

/-- The parser keeps nothing per chunk: feeding two byte strings one after the other is feeding them joined. -/
theorem feedAll_append (q : Port) (u v : List Byte) :
    feedAll q (u ++ v) = ((feedAll (feedAll q u).1 v).1, (feedAll q u).2 ++ (feedAll (feedAll q u).1 v).2) := by
  induction u generalizing q with
  | nil => rfl
  | cons b u ih => simp [feedAll_cons, ih]

/-- The data bytes after a body byte was stored at the end of them. -/
theorem dataBytes_snoc {q q' : Port} {b : Byte} (hw : q.data.wf = true) (hl : q.dataLen.toNat < Config.dataCap)
    (hd : q'.data = q.data.write q.dataLen.toNat b) (hn : q'.dataLen.toNat = q.dataLen.toNat + 1) :
    q'.dataBytes = q.dataBytes ++ [b] := by
  unfold Port.dataBytes
  rw [hn, hd, List.range_succ, List.map_append]
  congr 1
  · refine List.map_congr_left fun i hi => ?_
    have : q.dataLen.toNat ≠ i := by have := List.mem_range.1 hi; omega
    rw [Memory.read_write hw, if_neg (fun h => this h.1)]
  · rw [List.map_singleton, Memory.read_write hw, if_pos ⟨rfl, hl⟩]

@[simp] theorem dataBytes_length (q : Port) : q.dataBytes.length = q.dataLen.toNat := by
  simp [Port.dataBytes]

end Sys2Proof.Machine
end

