-- ==== Sys2Proof/Laws/Exec.lean ====
section
/-! SUPPORT. What a command, a `Feed` step and a step of the machine can do, each said once. -/

namespace Sys2Proof.Machine

/-- The encoder's update, as the statements write it. -/
theorem buildAck_eq_replied (s : State) (c : Bytes4) (m : List Byte) : s.buildAck c m = s.replied [] c m := by
  simp [State.buildAck, State.replied, State.emit, State.setPort]

/-- A raised error adds one diagnostic and nothing else. -/
theorem raise_eq_outputting (s : State) (e : ErrorKind) : s.raise e = s.outputting [.diag s.hand e] := rfl

theorem validAddrs_map_ok (l : List Byte) : validAddrs (l.map .ok) = some l := by
  induction l with
  | nil => rfl
  | cons a l ih => simp [validAddrs, ih]

/-- The addresses of an `RRSE` are valid exactly when every operand is. -/
theorem validAddrs_eq_some {l : List Operand} {m : List Byte} : validAddrs l = some m ↔ l = m.map .ok := by
  constructor
  · induction l generalizing m with
    | nil => simp [validAddrs]
    | cons x l ih =>
      cases x with
      | ok a =>
        simp only [validAddrs, Option.map_eq_some_iff]
        rintro ⟨m', hm, rfl⟩
        rw [ih hm]
        rfl
      | missing => simp [validAddrs]
      | malformed => simp [validAddrs]
  · rintro rfl
    exact validAddrs_map_ok m

/-- The state before the reply or the error of a command, and which of the two it makes: everything `exec` can do. -/
inductive ExecCase (s : State) : Instr → State → Prop
  | wreg (a v : Byte) : ExecCase s (.wreg (.ok a) (.ok v)) ((brokerWrite s a v).2.buildAck codeWreg [])
  | wregInvalid (x y : Operand) (h : ∀ a v, ¬(x = .ok a ∧ y = .ok v)) :
      ExecCase s (.wreg x y) ((s.raise .invalidCommandData).buildAck codeWreg [])
  | rreg (a : Byte) : ExecCase s (.rreg (.ok a)) ((valueText s a).2.buildAck codeRreg (valueText s a).1)
  | rregInvalid (x : Operand) (h : ∀ a, x ≠ .ok a) : ExecCase s (.rreg x) (s.raise .invalidCommandData)
  | rrse (l : List Byte) :
      ExecCase s (.rrse (l.map .ok)) ((readSequence s l).2.buildAck codeRrse (readSequence s l).1)
  | rrseInvalid (l : List Operand) (h : validAddrs l = none) : ExecCase s (.rrse l) (s.raise .invalidCommandData)
  | pollConflict (x : Operand) (h : s.streamConflict.1 = true) :
      ExecCase s (.poll x) (s.streamConflict.2.raise .streamingConflict)
  | poll (x : Operand) (h : s.streamConflict.1 = false) : ExecCase s (.poll x) (pollAllowed x s.streamConflict.2)
  | unknown (c : Bytes4) : ExecCase s (.unknown c) (s.raise .unknownCommand)

theorem exec_cases (i : Instr) (s : State) : ∃ t, exec i s = .next t ∧ ExecCase s i t := by
  cases i with
  | wreg x y =>
    cases x with
    | ok a =>
      cases y with
      | ok v => exact ⟨_, rfl, .wreg a v⟩
      | missing => exact ⟨_, rfl, .wregInvalid _ _ (by simp)⟩
      | malformed => exact ⟨_, rfl, .wregInvalid _ _ (by simp)⟩
    | missing => exact ⟨_, rfl, .wregInvalid _ _ (by simp)⟩
    | malformed => exact ⟨_, rfl, .wregInvalid _ _ (by simp)⟩
  | rreg x =>
    cases x with
    | ok a => exact ⟨_, rfl, .rreg a⟩
    | missing => exact ⟨_, rfl, .rregInvalid _ (by simp)⟩
    | malformed => exact ⟨_, rfl, .rregInvalid _ (by simp)⟩
  | rrse l =>
    cases h : validAddrs l with
    | some m =>
      obtain rfl := validAddrs_eq_some.1 h
      exact ⟨_, by simp only [exec, execRrse, h], .rrse m⟩
    | none => exact ⟨_, by simp only [exec, execRrse, h], .rrseInvalid l h⟩
  | poll x =>
    cases h : s.streamConflict.1 with
    | true => exact ⟨_, by simp [exec, execPoll, h], .pollConflict x h⟩
    | false => exact ⟨_, by simp [exec, execPoll, h], .poll x h⟩
  | unknown c => exact ⟨_, rfl, .unknown c⟩

/-- A `POLL` with no conflict sets a frequency or raises an error, and replies. -/
theorem pollAllowed_eq (x : Operand) (s : State) :
    (∃ f, x = .ok f ∧ pollAllowed x s = (s.setPoll (clampFreq f)).buildAck codePoll []) ∨
    ((∀ f, x ≠ .ok f) ∧ pollAllowed x s = (s.raise .invalidCommandData).buildAck codePoll []) := by
  cases x with
  | ok f => exact .inl ⟨f, rfl, rfl⟩
  | missing => exact .inr ⟨by simp, rfl⟩
  | malformed => exact .inr ⟨by simp, rfl⟩

/-! ### The reducer -/

/-- A recompute of a frame of the right size commits and broadcasts. -/
theorem recompute_next {s : State} {frame : List Half} (h : frame.length = s.params.frameW * s.params.frameH) :
    recompute frame s = .next ({ s with vrt := Vrt.commit s.params s.vrt frame }.emit
      (.bcast (s.params.bcastSelect.map (Vrt.result (Vrt.commit s.params s.vrt frame))))) := by
  simp only [recompute, h, if_true]

/-! ### Steps -/

/-- With the boot load pending, a step makes it. -/
theorem step_boot {s : State} (h : s.bootPending = true) : step s = .next s.bootLoad := by
  simp [step, h]

/-- Otherwise a step takes the first event on offer. -/
theorem step_event {s : State} {e : Event} {rest : List Event} (h : s.bootPending = false)
    (hi : s.inputs = e :: rest) : step s = takeEvent e { s with inputs := rest } := by
  simp [step, h, takeNext, hi]

/-- What the step of a byte is: its port's parser, what follows from its result, and the result recorded. -/
theorem feedPort_eq {s : State} {p : Nat} (b : Byte) (h : p < s.ports.length) :
    feedPort p b s = withResult (feed (s.port p) b).2
      (afterFeed (feed (s.port p) b).2 { s with hand := p, ports := s.ports.set p (feed (s.port p) b).1 }) := by
  simp [feedPort, h, State.setPort]

/-- A `Feed` step of a port that exists answers a next state: the parser gave `Continue`, gave up the frame with an
error, or completed a frame whose command ran. -/
theorem feedPort_cases {s : State} {p : Nat} (b : Byte) (h : p < s.ports.length) :
    ∃ t, feedPort p b s = .next (t.emit (.result t.hand (feed (s.port p) b).2)) ∧
      let q := (feed (s.port p) b).1
      let s1 := { s with hand := p, ports := s.ports.set p q }
      (((feed (s.port p) b).2 = .cont ∧ t = s1) ∨
       ((feed (s.port p) b).2 = .reset ∧ t = s1.raise .lengthRejected) ∨
       ((feed (s.port p) b).2 = .completeFail ∧ t = s1.raise .checksumMismatch) ∨
       ((feed (s.port p) b).2 = .completeOk ∧ ExecCase s1 (decodeBody q.cmd q.dataBytes) t)) := by
  rw [feedPort_eq b h]
  dsimp only
  cases hr : (feed (s.port p) b).2 with
  | cont => exact ⟨_, rfl, .inl ⟨rfl, rfl⟩⟩
  | reset => exact ⟨_, rfl, .inr (.inl ⟨rfl, rfl⟩)⟩
  | completeFail => exact ⟨_, rfl, .inr (.inr (.inl ⟨rfl, rfl⟩))⟩
  | completeOk =>
    set q := (feed (s.port p) b).1
    set s1 : State := { s with hand := p, ports := s.ports.set p q }
    have hq : s1.port s1.hand = q := State.port_setPort_self (s := s) h q
    obtain ⟨t, ht, hc⟩ := exec_cases (decodeBody q.cmd q.dataBytes) s1
    refine ⟨t, ?_, .inr (.inr (.inr ⟨rfl, hc⟩))⟩
    simp only [afterFeed, dispatch, hq, ht, withResult]

end Sys2Proof.Machine
end

