-- ==== Sys2Proof/Laws/PerInstr.lean ====
section
/-! SUPPORT. The statements made for each instruction by itself: its data fits the data buffer (30_encoding.md R107,
40_frame_parser.md R136), so that its frame declares at most 520 bytes. -/

namespace Sys2Proof.Laws.DataBounded

/-- A well-formed instruction's data bytes fit the 512 bytes of a data buffer, and the length its frame declares counts
the code, the data and the checksum. -/
def Statement (i : Instr) : Prop :=
  i.wellFormed = true →
    (encodeData i).length ≤ 512 ∧ (encode i).length = 13 + (encodeData i).length ∧
    (encode i).head? = some Config.start

theorem operand_length (x : Operand) : (encodeOperand x).length ≤ 2 := by
  cases x <;> simp [encodeOperand]

theorem frame_length (i : Instr) :
    (encode i).length = 13 + (encodeData i).length ∧ (encode i).head? = some Config.start := by
  constructor
  · simp [encode, frame]
    omega
  · rfl

theorem wreg (addr value : Operand) : Statement (.wreg addr value) := by
  intro _
  have h1 := operand_length addr
  have h2 := operand_length value
  exact ⟨by simp only [encodeData, List.length_append]; omega, frame_length _⟩

theorem rreg (addr : Operand) : Statement (.rreg addr) := by
  intro _
  have h := operand_length addr
  exact ⟨by simp only [encodeData]; omega, frame_length _⟩

theorem rrse (addrs : List Operand) : Statement (.rrse addrs) := by
  intro h
  have hl : addrs.length ≤ 256 := by
    simp only [Instr.wellFormed, Bool.and_eq_true, decide_eq_true_eq] at h
    exact h.2
  have key : ∀ l : List Operand, (l.flatMap encodeOperand).length ≤ 2 * l.length := by
    intro l
    induction l with
    | nil => simp
    | cons x l ih =>
      have := operand_length x
      simp only [List.flatMap_cons, List.length_append, List.length_cons]
      omega
  have := key addrs
  exact ⟨by simp only [encodeData]; omega, frame_length _⟩

theorem poll (freq : Operand) : Statement (.poll freq) := by
  intro _
  have h := operand_length freq
  exact ⟨by simp only [encodeData]; omega, frame_length _⟩

theorem unknown (cmd : Bytes4) : Statement (.unknown cmd) := by
  intro _
  exact ⟨by simp [encodeData], frame_length _⟩

end Sys2Proof.Laws.DataBounded
end

