-- ==== Sys2Proof/Tests/Slice0.lean ====
section
/-! SUPPORT. The model's own tests: ill-formed terms refused, words and results of 95_test_vectors.md, one step each,
and for every statement with hypotheses a concrete state and operands that meet them. -/

open Sys2Proof Sys2Proof.Machine

namespace Sys2Proof.Tests

/-! ### A small concrete machine: the preamble of 95_test_vectors.md, two ports -/

/-- `FRAME_W = 80`, `FRAME_H = 62`, `VERSION_VALUE(0xB2) = 0x07`, the other open parameters by choice. -/
def params : Params where
  extraW := 78
  extraH := 60
  ackFiller := 0x20
  versionB2 := 0x07
  versionB3 := 0x08
  defXsplit := 40
  defYsplit := 31
  defBurnX := .const 0
  defBurnY := .const 0
  deviceId := ⟨1, 2, 3, 4, 5, 6⟩
  bcastSelect := ⟨⟨.max, .a⟩, ⟨.max, .b⟩, ⟨.max, .c⟩, ⟨.max, .d⟩, ⟨.burnT, .a⟩, ⟨.burnT, .b⟩, ⟨.burnT, .c⟩, ⟨.center, .d⟩⟩

/-- `xsplit = 40`, `ysplit = 31`, `max[A] = 0x04D2`, each burner at a corner of its quadrant. -/
def vrt : Vrt where
  xsplit := 40
  ysplit := 31
  max := ⟨0x04D2, 0, 0, 0⟩
  center := .const 0
  burnX := ⟨0, 40, 0, 40⟩
  burnY := ⟨0, 0, 31, 31⟩
  burnT := .const 0
  devId := ⟨1, 2, 3, 4, 5, 6⟩

/-- The machine with these ports and events on offer; the sensor's next answers are 0x5A. -/
def machine (ports : List Port) (inputs : List Event) : State where
  params := params
  ports := ports
  vrt := vrt
  store := []
  hand := 0
  bootPending := false
  inputs := inputs
  sensorAnswers := [0x5A, 0x5A]
  conflictAnswers := []
  draws := 0
  outputs := []

/-- Two idle ports and nothing on offer. -/
def idle : State := machine [.reset, .reset] []

/-- Two idle ports with one answer of `stream_conflict` on offer. -/
def asked (c : Bool) : State := { idle with conflictAnswers := [c] }

/-- Port 0 in `ReadLength` with these three characters received. -/
def atLength (c0 c1 c2 : Byte) : Port := { Port.reset with ps := .readLength, cnt := 3, lenField := ⟨c0, c1, c2, 0⟩ }

/-- Port 0 in `ReadChecksum` of `"#0008WREG"` with `"01F"` received. -/
def atChecksum : Port where
  ps := .readChecksum
  cnt := 3
  lenField := ⟨0x30, 0x30, 0x30, 0x38⟩
  declaredLength := 8
  cmd := codeWreg
  data := []
  dataLen := 0
  csField := ⟨0x30, 0x31, 0x46, 0⟩
  acc := 0x1FD
  ack := []
  ackLen := 0

/-- Port 0 in `ReadChecksum` of `"#000CWREGC014"` with `"XXX"` received: a `WREG` of 0x14 to `XSPLIT`. -/
def atXsplitWrite : Port where
  ps := .readChecksum
  cnt := 3
  lenField := ⟨0x30, 0x30, 0x30, 0x43⟩
  declaredLength := 12
  cmd := codeWreg
  data := [(0, 0x43), (1, 0x30), (2, 0x31), (3, 0x34)]
  dataLen := 4
  csField := ⟨0x58, 0x58, 0x58, 0⟩
  acc := 0x2D8
  ack := []
  ackLen := 0

/-- Port 0 in `ReadBody` with `n` body bytes received of a frame of this length. -/
def atBody (n : BitVec 10) (len : Word32) : Port :=
  { Port.reset with ps := .readBody, cnt := n, declaredLength := len, dataLen := n - 4 }

/-- A next state with this property. -/
def nextIs (o : Host.Outcome State Fault Refusal) (f : State → Bool) : Bool :=
  match o with
  | .next s => f s
  | .fault _ => false
  | .refused _ => false

/-- The bytes of the reply last built on port 0 but its four checksum characters, which an opaque function makes. -/
def replyHead (s : State) : List Byte :=
  let b := (s.port 0).ack
  b.take (b.length - 4)

/-! ### WellFormed refuses -/

theorem test_wf_value_without_address : (Instr.wreg .missing (.ok 1)).wellFormed = false := by decide

theorem test_wf_missing_in_sequence : (Instr.rrse [.ok 0xC2, .missing]).wellFormed = false := by decide

theorem rrse_wellFormed (l : List Operand) :
    (Instr.rrse l).wellFormed = (l.all Operand.present && decide (l.length ≤ maxAddrs)) := rfl

theorem test_wf_sequence_too_long (x : Operand) : (Instr.rrse (List.replicate 257 x)).wellFormed = false := by
  rw [rrse_wellFormed, List.length_replicate, show decide (257 ≤ maxAddrs) = false by decide, Bool.and_false]

theorem test_wf_unknown_with_known_code : (Instr.unknown codePoll).wellFormed = false := by decide

/-! ### Decoding: frames of 95_test_vectors.md, each written out byte by byte -/

/-- V-D6: `"#000CWREGc0280305"`, lower-case digits. -/
theorem test_decode_wreg : decode [0x23, 0x30, 0x30, 0x30, 0x43, 0x57, 0x52, 0x45, 0x47, 0x63, 0x30, 0x32, 0x38,
    0x30, 0x33, 0x30, 0x35] = .ok (.wreg (.ok 0xC0) (.ok 0x28), []) := by rfl

/-- V-D7: `"#000AWREGC00279"`, the value operand missing. -/
theorem test_decode_wreg_missing : decode [0x23, 0x30, 0x30, 0x30, 0x41, 0x57, 0x52, 0x45, 0x47, 0x43, 0x30, 0x30,
    0x32, 0x37, 0x39] = .ok (.wreg (.ok 0xC0) .missing, []) := by rfl

/-- V-D13: `"#0008RREGXXXX"`, the bypass and no operand. -/
theorem test_decode_rreg : decode [0x23, 0x30, 0x30, 0x30, 0x38, 0x52, 0x52, 0x45, 0x47, 0x58, 0x58, 0x58, 0x58]
    = .ok (.rreg .missing, []) := by rfl

/-- V-D17: `"#000CRRSEC2G102FC"`, the second address malformed. -/
theorem test_decode_rrse : decode [0x23, 0x30, 0x30, 0x30, 0x43, 0x52, 0x52, 0x53, 0x45, 0x43, 0x32, 0x47, 0x31,
    0x30, 0x32, 0x46, 0x43] = .ok (.rrse [.ok 0xC2, .malformed], []) := by rfl

/-- V-D18: `"#000BRRSEC2B02C5"`, a last odd byte. -/
theorem test_decode_rrse_odd : decode [0x23, 0x30, 0x30, 0x30, 0x42, 0x52, 0x52, 0x53, 0x45, 0x43, 0x32, 0x42, 0x30,
    0x32, 0x43, 0x35] = .ok (.rrse [.ok 0xC2], []) := by rfl

/-- V-D20: `"#000APOLLFF0294"`. -/
theorem test_decode_poll : decode [0x23, 0x30, 0x30, 0x30, 0x41, 0x50, 0x4F, 0x4C, 0x4C, 0x46, 0x46, 0x30, 0x32,
    0x39, 0x34] = .ok (.poll (.ok 0xFF), []) := by rfl

/-- V-D25: `"#0008wregXXXX"`, the command code is case-sensitive. -/
theorem test_decode_unknown : decode [0x23, 0x30, 0x30, 0x30, 0x38, 0x77, 0x72, 0x65, 0x67, 0x58, 0x58, 0x58, 0x58]
    = .ok (.unknown ⟨0x77, 0x72, 0x65, 0x67⟩, []) := by rfl

/-- V-P7: `"#12#0008WREGXXXX"`, a length of four characters that are no hex digits. -/
theorem test_decode_length_rejected : decode [0x23, 0x31, 0x32, 0x23, 0x30, 0x30, 0x30, 0x38, 0x57, 0x52, 0x45, 0x47,
    0x58, 0x58, 0x58, 0x58] = .error .lengthRejected := by rfl

/-- V-P4: `"#0008WREG01FE"`. -/
theorem test_decode_checksum_mismatch : decode [0x23, 0x30, 0x30, 0x30, 0x38, 0x57, 0x52, 0x45, 0x47, 0x30, 0x31,
    0x46, 0x45] = .error .checksumMismatch := by rfl

theorem test_decode_no_start : decode [0x7A, 0x7A] = .error .noStart := by rfl

theorem test_decode_truncated : decode [0x23, 0x30, 0x30, 0x30, 0x38, 0x57] = .error .truncated := by rfl

/-- V-H2: the neighbours of the digit ranges are no digits. -/
theorem test_hexval_invalid :
    [0x47, 0x67, 0x58, 0x23, 0x20, 0x00, 0x2F, 0x3A, 0x40, 0x60].all (fun c => hexval c == none) = true := by decide

/-- `VerifierAcceptsBypassOrSum`, its hypotheses: the ends of the three digit ranges and the bytes beside them, a number of
two and one of four digits, and a bad character in each place of two. -/
theorem test_hyp_verifier :
    ([0x30, 0x39, 0x41, 0x46, 0x61, 0x66].map hexval = [some 0, some 9, some 10, some 15, some 10, some 15]) ∧
    ([0x2F, 0x3A, 0x40, 0x47, 0x60, 0x67].all fun c => hexval c == none) = true ∧
    hex2 0x66 0x30 = some 0xF0 ∧ hex4 ⟨0x30, 0x31, 0x46, 0x64⟩ = some 0x01FD ∧
    hexval 0x58 = none ∧ hex2 0x58 0x30 = none ∧ hex2 0x30 0x58 = none ∧
    (0x58 ∈ (⟨0x30, 0x31, 0x58, 0x64⟩ : Bytes4).toList ∧ hex4 ⟨0x30, 0x31, 0x58, 0x64⟩ = none) := by decide

/-- V-H8: with `HEX_LOWER_OK = false`. -/
theorem test_hexval_lower : hexvalWith false 0x61 = none ∧ hexval 0x61 = some 10 := by decide

/-- V-C7: the width of the comparison. -/
theorem test_csum_width : csumVerifyWith 32 0x000101FD ⟨0x30, 0x31, 0x46, 0x44⟩ = false ∧
    csumVerifyWith 16 0x000101FD ⟨0x30, 0x31, 0x46, 0x44⟩ = true := by decide

/-! ### Results: 95_test_vectors.md, one step each -/

/-- V-B3 and V-B5: the splits and a burner are clamped and persisted. -/
theorem test_wreg_clamps :
    nextIs (exec (.wreg (.ok 0xC0) (.ok 0)) idle) (fun t => t.vrt.xsplit == 1 && t.store == [(0xC0, 1)]) = true ∧
    nextIs (exec (.wreg (.ok 0xCA) (.ok 0x32)) idle) (fun t => t.vrt.burnX.a == 39 && t.store == [(0xCA, 39)]) = true
    := by decide

/-- Values beyond the far bound of quadrants A and D (S9; V-B5): the nearest coordinate is stored. -/
theorem test_wreg_burner_bounds :
    nextIs (exec (.wreg (.ok 0xCA) (.ok 0xFF)) idle) (fun t => t.vrt.burnX.a == 39) = true ∧
    nextIs (exec (.wreg (.ok 0xD0) (.ok 0xFF)) idle) (fun t => t.vrt.burnX.d == 79) = true ∧
    nextIs (exec (.wreg (.ok 0xD1) (.ok 0)) idle) (fun t => t.vrt.burnY.d == 31) = true := by decide

/-- V-D1: the reply to `WREG` but its checksum, `F F F "#0008WREG"`. -/
theorem test_wreg_reply : nextIs (exec (.wreg (.ok 0xC0) (.ok 0x28)) idle) (fun t => replyHead t ==
    [0x20, 0x20, 0x20, 0x23, 0x30, 0x30, 0x30, 0x38, 0x57, 0x52, 0x45, 0x47]) = true := by rfl

/-- V-D8: `F F F "#000CRREG04D2"`. -/
theorem test_rreg_analysis : nextIs (exec (.rreg (.ok 0xC2)) idle) (fun t => replyHead t ==
    [0x20, 0x20, 0x20, 0x23, 0x30, 0x30, 0x30, 0x43, 0x52, 0x52, 0x45, 0x47, 0x30, 0x34, 0x44, 0x32]) = true := by rfl

/-- V-D11: `F F F "#000ARREG5A"`, one call of `hw_read`. -/
theorem test_rreg_hardware : nextIs (exec (.rreg (.ok 0x10)) idle) (fun t => replyHead t ==
    [0x20, 0x20, 0x20, 0x23, 0x30, 0x30, 0x30, 0x41, 0x52, 0x52, 0x45, 0x47, 0x35, 0x41] &&
    t.outputs.head? == some (.hwRead 0x10)) = true := by rfl

/-- V-D14: `F F F "#0016RRSEC204D2B207105A"`. -/
theorem test_rrse_mixed : nextIs (exec (.rrse [.ok 0xC2, .ok 0xB2, .ok 0x10]) idle) (fun t => replyHead t ==
    [0x20, 0x20, 0x20, 0x23, 0x30, 0x30, 0x31, 0x36, 0x52, 0x52, 0x53, 0x45, 0x43, 0x32, 0x30, 0x34, 0x44, 0x32,
     0x42, 0x32, 0x30, 0x37, 0x31, 0x30, 0x35, 0x41]) = true := by rfl

/-- V-D17: an invalid address, no read at all. -/
theorem test_rrse_invalid : nextIs (exec (.rrse [.ok 0x10, .malformed]) idle) (fun t =>
    t.outputs == [.diag 0 .invalidCommandData] && t.sensorAnswers == [0x5A, 0x5A]) = true := by decide

/-- V-D20 and V-D21: `set_poll(25)` for 0x1A, `set_poll(0)` for 0. -/
theorem test_poll_clamps :
    nextIs (exec (.poll (.ok 0x1A)) (asked false)) (fun t => t.outputs.head? == some (.setPoll 25)) = true ∧
    nextIs (exec (.poll (.ok 0)) (asked false)) (fun t => t.outputs.head? == some (.setPoll 0)) = true := by
  constructor <;> rfl

/-- V-D23: a streaming session is active. -/
theorem test_poll_conflict : nextIs (exec (.poll (.ok 0x19)) (asked true))
    (fun t => t.outputs == [.diag 0 .streamingConflict]) = true := by decide

/-- V-D24. -/
theorem test_unknown : nextIs (exec (.unknown ⟨0x41, 0x42, 0x43, 0x44⟩) idle)
    (fun t => t.outputs == [.diag 0 .unknownCommand]) = true := by decide

/-- V-P1: the last byte of `"#0008WREG01FD"` completes the frame, and its command runs. -/
theorem test_step_completes : nextIs (step (machine [atChecksum] [.byte 0 0x44])) (fun t =>
    t.outputs.getLast? == some (.result 0 .completeOk) && (t.port 0).ps == .seekStart) = true := by rfl

/-- The frame of V-R2, `FRAME_W = FRAME_H = 4`, `pix(x, y) = 16 * y + x`. -/
def frameR2 : List Half := [0, 1, 2, 3, 16, 17, 18, 19, 32, 33, 34, 35, 48, 49, 50, 51]

/-- V-R2: maxima, centres and burners. -/
theorem test_recompute :
    Vrt.commit { params with extraW := 2, extraH := 2 }
      { vrt with xsplit := 2, ysplit := 2, burnX := ⟨1, 3, 0, 2⟩, burnY := ⟨1, 0, 3, 2⟩ } frameR2
    = { vrt with xsplit := 2, ysplit := 2, burnX := ⟨1, 3, 0, 2⟩, burnY := ⟨1, 0, 3, 2⟩,
                 max := ⟨17, 19, 49, 51⟩, center := ⟨17, 19, 49, 51⟩, burnT := ⟨17, 3, 48, 34⟩ } := by decide

/-- V-R1: the centres with `xsplit = 79`, `ysplit = 61`. -/
theorem test_centre : (centreX 80 79 .a, centreY 62 61 .a) = (39, 30) ∧ (centreX 80 79 .d, centreY 62 61 .d) = (79, 61)
    := by decide

/-- The words of the opcode table run as the first instruction after reset. -/
theorem test_table_words_run :
    nextIs (step (State.reset.withFetchWord 32 0x57524547)) (fun t => t.inputs.isEmpty) = true ∧
    nextIs (step (State.reset.withFetchWord 32 0x52525345)) (fun t => t.inputs.isEmpty) = true := by
  constructor <;> rfl

/-! ### The hypotheses of the statements are met -/

theorem reset_ok : Port.reset.Ok := ⟨⟨by decide, rfl⟩, trivial, rfl, fun _ _ => rfl, rfl⟩

theorem atBody_ok : (atBody 515 600).Ok := by
  exact ⟨⟨by decide, show (515 : BitVec 10).toNat ≤ 515 by decide⟩, ⟨by decide, by decide, by decide⟩, by decide,
    fun _ _ => rfl, by decide⟩

theorem atLength_ok : (atLength 0x30 0x30 0x30).Ok := by
  exact ⟨⟨by decide, show (3 : BitVec 10).toNat ≤ 3 by decide⟩, rfl, by decide, fun _ _ => rfl, by decide⟩

theorem coordsOk_of_vrt (ports : List Port) (inputs : List Event) : (machine ports inputs).coordsOk := by
  have h : (1 ≤ vrt.xsplit.toNat ∧ vrt.xsplit.toNat ≤ params.frameW - 1) ∧
      (1 ≤ vrt.ysplit.toNat ∧ vrt.ysplit.toNat ≤ params.frameH - 1) := by decide
  refine ⟨h.1, h.2, fun q => ?_⟩
  have hq : (vrt.burnX.get q).toNat ≤ params.frameW - 1 ∧ (vrt.burnY.get q).toNat ≤ params.frameH - 1 := by
    cases q <;> decide
  exact hq

theorem inv_of_reset_ports (inputs : List Event) : (machine [.reset, .reset] inputs).Inv := by
  refine ⟨show 1 ≤ 2 by decide, fun q hq => ?_, rfl, fun _ => coordsOk_of_vrt _ _⟩
  rw [List.eq_of_mem_replicate (n := 2) hq]
  exact reset_ok

/-- `DecodeOfEncodeIsIdentity`: 256 addresses; a `WREG` with and without its value; an unknown code. -/
theorem test_hyp_decodeOfEncode :
    (Instr.wreg (.ok 0xC0) (.ok 0xFF)).wellFormed = true ∧ (Instr.wreg .malformed .missing).wellFormed = true ∧
    (Instr.rrse (List.replicate 256 (.ok 0xC2))).wellFormed = true ∧ (Instr.unknown .zero).wellFormed = true := by
  refine ⟨by decide, by decide, ?_, by decide⟩
  rw [rrse_wellFormed, List.length_replicate, show decide (256 ≤ maxAddrs) = true by decide, Bool.and_true,
    List.all_eq_true]
  intro x hx
  rw [List.eq_of_mem_replicate hx]
  rfl

/-- `DecodedBodiesAreWellFormed`: the greatest length. -/
theorem test_hyp_decodedBodies : (List.replicate 512 (0x43 : Byte)).length ≤ 512 := by
  rw [List.length_replicate]

/-- `UnknownIsEveryOtherCode`: a code of neither clause's other kind. -/
theorem test_hyp_unknown : (⟨0x57, 0x52, 0x45, 0x48⟩ : Bytes4) ∉ [codeWreg, codeRreg, codeRrse, codePoll] ∧
    codePoll ∈ [codeWreg, codeRreg, codeRrse, codePoll] := by decide

/-- `SeekStartWaitsForTheMarker`. -/
theorem test_hyp_seekStart : Port.reset.ps = .seekStart ∧ (0x22 : Byte) ≠ 0x23 ∧ (0x23 : Byte) = 0x23 := by decide

/-- `LengthBytesStoredAndSummed`: the first and the third byte. -/
theorem test_hyp_lengthBytes :
    ({ Port.reset with ps := .readLength } : Port).cnt.toNat < 3 ∧
    ({ Port.reset with ps := .readLength, cnt := 2 } : Port).cnt.toNat < 3 := by decide

/-- `FourthLengthByteDecides`: lengths 7 and 8, the sentinel, and 65535. -/
theorem test_hyp_fourthLengthByte :
    let s := machine [atLength 0x30 0x30 0x30, .reset] [.byte 0 0x37]
    let v := fun b => lenValue ((s.port 0).lenField.set 3 b)
    s.bootPending = false ∧ s.inputs = .byte 0 0x37 :: [] ∧ 0 < s.ports.length ∧
    (s.port 0).ps = .readLength ∧ (s.port 0).cnt = 3 ∧ (v 0x37).toNat = 7 ∧ (v 0x38).toNat = 8 ∧ v 0x47 = 0xFFFFFFFF ∧
    lenValue ⟨0x46, 0x46, 0x46, 0x46⟩ = 0xFFFF := by decide

/-- `BodyBytesStoredUpToTheLimit`: the fourth and fifth body byte, the last byte before the limit and the last one. -/
theorem test_hyp_bodyBytes :
    let p := fun n => atBody n 600
    (p 3).ps = .readBody ∧ (p 3).data.wf = true ∧ (p 3).cnt.toNat < 4 ∧ 4 ≤ (p 4).cnt.toNat ∧ (p 4).cnt.toNat < 516 ∧
    ((p 515).cnt + 1).toNat = min ((p 515).declaredLength.toNat - 4) 516 ∧
    ((p 514).cnt + 1).toNat ≠ min ((p 514).declaredLength.toNat - 4) 516 ∧
    ((atBody 3 8).cnt + 1).toNat = min ((atBody 3 8).declaredLength.toNat - 4) 516 ∧ (0 : Nat) ≠ (p 515).cnt.toNat - 4
    := by decide

/-- `FeedResultByState`, and the further clauses of `FourthLengthByteDecides`: a port in each state of the table, a
character that is no digit, a rejection. -/
theorem test_hyp_feedResult :
    Port.reset.ps = .seekStart ∧ (atLength 0 0 0).ps = .readLength ∧ (atLength 0 0 0).cnt = 3 ∧
    (atBody 3 8).ps = .readBody ∧ atChecksum.ps = .readChecksum ∧ atChecksum.cnt = 3 ∧
    ({ Port.reset with ps := .readChecksum, cnt := 2 } : Port).cnt.toNat < 3 ∧
    (0x47 ∈ ((atLength 0x30 0x30 0x30).lenField.set 3 0x47).toList ∧ hexval 0x47 = none) ∧
    (feed (atLength 0x30 0x30 0x30) 0x37).2 = .reset := by decide

/-- `ChecksumMismatchIsNotDispatched` and `AcceptedFrameStepIsExecOfItsCommand`: V-P4 and V-P1. -/
theorem test_hyp_lastChecksumByte :
    let s := fun b => machine [atChecksum, .reset] [.byte 0 b]
    (s 0x45).bootPending = false ∧ (s 0x45).inputs = .byte 0 0x45 :: [] ∧ 0 < (s 0x45).ports.length ∧
    ((s 0x45).port 0).ps = .readChecksum ∧ ((s 0x45).port 0).cnt = 3 ∧
    csumVerify ((s 0x45).port 0).acc (((s 0x45).port 0).csField.set 3 0x45) = false ∧
    (s 0x44).bootPending = false ∧ (s 0x44).inputs = .byte 0 0x44 :: [] ∧ 0 < (s 0x44).ports.length ∧
    ((s 0x44).port 0).ps = .readChecksum ∧ ((s 0x44).port 0).cnt = 3 ∧
    csumVerify ((s 0x44).port 0).acc (((s 0x44).port 0).csField.set 3 0x44) = true := by decide

/-- `FailedFramesHaveNoEffect`: both kinds of failure. -/
theorem test_hyp_failedFrames :
    let s := machine [atChecksum, atLength 0x30 0x30 0x30] [.byte 0 0x45]
    let u := machine [atChecksum, atLength 0x30 0x30 0x30] [.byte 1 0x37]
    s.bootPending = false ∧ s.inputs = .byte 0 0x45 :: [] ∧ 0 < s.ports.length ∧
    (feed (s.port 0) 0x45).2 = .completeFail ∧
    u.bootPending = false ∧ u.inputs = .byte 1 0x37 :: [] ∧ 1 < u.ports.length ∧ (feed (u.port 1) 0x37).2 = .reset
    := by decide

/-- `ParserSpanIsFixedByTheLength`: a result other than `Continue`; a rejected and an accepted length, with tails on
both sides of the span. -/
theorem test_hyp_parserSpan :
    (feed atChecksum 0x45).2 ≠ .cont ∧ Port.reset.ps = .seekStart ∧ (3 : Nat) < 4 ∧
    lengthRejected (lenValue ⟨0x30, 0x30, 0x30, 0x37⟩) = true ∧
    lengthRejected (lenValue ⟨0x30, 0x30, 0x30, 0x38⟩) = false ∧
    (List.replicate 7 (0x41 : Byte)).length < min ((lenValue ⟨0x30, 0x30, 0x30, 0x38⟩).toNat - 4) 516 + 4 ∧
    (List.replicate 8 (0x41 : Byte)).length = min ((lenValue ⟨0x30, 0x30, 0x30, 0x38⟩).toNat - 4) 516 + 4 ∧
    (atBody 515 600).Ok := by
  refine ⟨by decide, by decide, by decide, by decide, by decide, by decide, by decide, atBody_ok⟩

/-- `FramesRoundTripThroughTheParser`: no data and 512 data bytes; a sum that fits 16 bits. -/
theorem test_hyp_roundTrip :
    Port.reset.ps = .seekStart ∧ ([] : List Byte).length ≤ 512 ∧ (List.replicate 512 (0x41 : Byte)).length ≤ 512 ∧
    (byteSum (frameBody codeWreg [])).toNat ≤ 0xFFFF := by
  refine ⟨by decide, by decide, ?_, by decide⟩
  rw [List.length_replicate]

/-- `SerialParserAgreesWithDecoder`: V-P8, bytes before the start marker and after the frame. -/
theorem test_hyp_serialParser : Port.reset.ps = .seekStart ∧
    decode [0x61, 0x62, 0x23, 0x30, 0x30, 0x30, 0x38, 0x57, 0x52, 0x45, 0x47, 0x30, 0x31, 0x46, 0x44, 0x7A]
      = .ok (.wreg .missing .missing, [0x7A]) := by decide

/-- `FeedKeepsAccumulatorTheSum`: an idle port, and one in the middle of a length. -/
theorem test_hyp_accumulator :
    (Port.reset.Ok ∧ Port.reset.unreachedZero ∧ Port.reset.sumOk) ∧
    let q := { atLength 0x30 0x30 0x30 with acc := 0x90 }
    q.Ok ∧ q.unreachedZero ∧ q.sumOk := by
  refine ⟨⟨reset_ok, trivial, rfl⟩,
    ⟨⟨by decide, show (3 : BitVec 10).toNat ≤ 3 by decide⟩, rfl, by decide, fun _ _ => rfl, by decide⟩,
    ⟨fun i hi h4 => ?_, rfl, rfl⟩, rfl⟩
  have h3 : 3 ≤ i := hi
  have : i = 3 := by omega
  subst this
  rfl

/-- `ChunkBoundariesAreInvisible`: 524 bytes, all in the second chunk. -/
theorem test_hyp_chunkBoundaries :
    idle.bootPending = false ∧ ([] : List Byte).length + (List.replicate 524 (0x41 : Byte)).length ≤ 524 := by
  rw [List.length_replicate]
  decide

/-- `ChunksAreCutAt524Bytes`. -/
theorem test_hyp_chunkCut :
    let s := machine [.reset] [.chunk 0 [0x23]]
    s.bootPending = false ∧ s.inputs = .chunk 0 [0x23] :: [] := by decide

/-- `SessionResetDiscardsTheFrame`. -/
theorem test_hyp_sessionReset :
    let s := machine [.reset, atBody 3 8] [.sreset 1]
    s.bootPending = false ∧ s.inputs = .sreset 1 :: [] ∧ 1 < s.ports.length := by decide

/-- `NeutralBytesResynchronise`: 524 spaces, from the port farthest from the end of its frame. -/
theorem test_hyp_neutral : Port.Ok (atBody 515 600) ∧ (List.replicate 524 (0x20 : Byte)).length = 524 ∧
    ∀ b ∈ List.replicate 524 (0x20 : Byte), b ≠ 0x23 ∧ hexval b = none ∧ b ≠ 0x58 := by
  refine ⟨atBody_ok, List.length_replicate, fun b hb => ?_⟩
  rw [List.eq_of_mem_replicate hb]
  decide

/-- `OnlyTheirAgentsWriteTheRegisters`: a byte whose step changes a coordinate, and the result and code it then has. -/
theorem test_hyp_coordinate_changes :
    let s := machine [atXsplitWrite] [.byte 0 0x58]
    s.bootPending = false ∧ s.inputs = .byte 0 0x58 :: [] ∧
    nextIs (step s) (fun t => t.vrt.xsplit == 0x14 && s.vrt.xsplit == 40) = true ∧
    (feed (s.port 0) 0x58).2 = .completeOk ∧ (s.port 0).cmd = codeWreg := by
  refine ⟨rfl, rfl, rfl, rfl, rfl⟩

/-- `ParserMovesOnlyAlongItsGraph` and `OnlyTheirAgentsWriteTheRegisters`: one step of each kind of event that answers a
next state, the byte one an accepted `WREG`. -/
theorem test_hyp_events :
    let f := List.replicate (80 * 62) (0 : Half)
    (∃ t, step (machine [atChecksum] [.byte 0 0x44]) = .next t) ∧ (∃ t, step (machine [.reset] [.chunk 0 []]) = .next t) ∧
    (∃ t, step (machine [.reset] [.sreset 0]) = .next t) ∧ (∃ t, step (machine [.reset] [.hardReset]) = .next t) ∧
    (∃ t, step (machine [.reset] [.capture f]) = .next t) ∧
    0 < (machine [.reset] [.capture f]).ports.length ∧ (machine [.reset] [.capture f]).bootPending = false := by
  intro f
  have h : f.length = params.frameW * params.frameH := by
    rw [List.length_replicate]
    decide
  refine ⟨⟨_, rfl⟩, ⟨_, rfl⟩, ⟨_, rfl⟩, ⟨_, rfl⟩,
    ⟨_, (step_event (s := machine [.reset] [.capture f]) rfl rfl).trans (recompute_next (s := machine [.reset] []) h)⟩,
    Nat.one_pos, rfl⟩

/-- `PortsAreIsolated`: two ports, and steps of one of them that answer a next state. -/
theorem test_hyp_ports : (1 : Nat) ≠ 0 ∧ (∃ t, feedPort 0 0x44 (machine [atChecksum, .reset] []) = .next t) ∧
    ∃ t, recompute (List.replicate (80 * 62) (0 : Half)) idle = .next t := by
  refine ⟨by decide, ⟨_, rfl⟩, _, recompute_next ?_⟩
  rw [List.length_replicate]
  decide

/-- `BrokerReadsByClass`, `RregRepliesWithTheValue`, `WregHardwareWritesThrough`: V-B1, each class at its boundaries; an
answer of the sensor on offer. -/
theorem test_hyp_classes :
    classify 0xC0 = .analysis ∧ classify 0xD5 = .analysis ∧ classify 0xB2 = .version ∧ classify 0xB3 = .version ∧
    classify 0x00 = .hardware ∧ classify 0xB1 = .hardware ∧ classify 0xB4 = .hardware ∧ classify 0xBF = .hardware ∧
    classify 0xD6 = .hardware ∧ classify 0xE5 = .hardware ∧ classify 0xFF = .hardware ∧
    idle.sensorAnswers = 0x5A :: [0x5A] ∧ hex2 0x43 0x32 = some 0xC2 := by decide

/-- `WregIgnoredWritesOnlyReply`: the ends of each range. -/
theorem test_hyp_ignored :
    [0xC2, 0xC9, 0xD2, 0xD5, 0xB2, 0xB3].all (fun a : Byte => decide ((0xC2 ≤ a.toNat ∧ a.toNat ≤ 0xC9) ∨
      (0xD2 ≤ a.toNat ∧ a.toNat ≤ 0xD5) ∨ a.toNat = 0xB2 ∨ a.toNat = 0xB3)) = true := by decide

/-- `AcceptedWritesArePersisted`, `CoordinateReadsBackAsStored`: keys and addresses that are none. -/
theorem test_hyp_keys : (0xC0 : Byte).toNat ∈ storeKeys ∧ (0xD1 : Byte).toNat ∈ storeKeys ∧
    (0xC2 : Byte).toNat ∉ storeKeys ∧ (0x10 : Byte).toNat ∉ storeKeys ∧ (0xC1 : Byte) ≠ 0xC0 ∧
    (brokerWrite idle 0xC2 0).1 = .ignored ∧
    .nvPut 0xC0 0x28 ∈ (brokerWrite idle 0xC0 0x28).2.outputs := by decide

/-- `WrittenBurnerLiesInItsQuadrant`, `CentreLiesInItsQuadrant`, `RecomputeStoresTheMaximum`: coordinates in range; a row
and a column of quadrant A and of D, values inside them, and the values next to the far side of each bound. -/
theorem test_hyp_coords : idle.coordsOk ∧
    (0 < idle.params.frameH ∧ ((Quadrant.a = .a ∨ Quadrant.a = .b) ↔ 0 < idle.vrt.ysplit.toNat)) ∧
    (61 < idle.params.frameH ∧ ((Quadrant.d = .a ∨ Quadrant.d = .b) ↔ 61 < idle.vrt.ysplit.toNat)) ∧
    (79 < idle.params.frameW ∧ ((Quadrant.d = .a ∨ Quadrant.d = .c) ↔ 79 < idle.vrt.xsplit.toNat)) ∧
    idle.inQuadrant .a (0x27 : Byte).toNat 0 ∧ idle.inQuadrant .d 79 (0x3D : Byte).toNat ∧
    (idle.vrt.xsplit.toNat ≤ (0x28 : Byte).toNat ∧ (0x27 : Byte).toNat < idle.vrt.xsplit.toNat ∧
      idle.params.frameW ≤ (0x50 : Byte).toNat ∧ idle.vrt.ysplit.toNat ≤ (0x1F : Byte).toNat ∧
      (0x1E : Byte).toNat < idle.vrt.ysplit.toNat ∧ idle.params.frameH ≤ (0x3E : Byte).toNat) ∧
    (List.replicate (80 * 62) (0 : Half)).length = idle.params.frameW * idle.params.frameH := by
  refine ⟨coordsOk_of_vrt _ _, by decide, by decide, by decide,
    by unfold State.inQuadrant; decide, by unfold State.inQuadrant; decide, by decide, ?_⟩
  rw [List.length_replicate]
  decide

/-- `RrseReadsInOrderAndReplies`: an address of each class with its value. -/
theorem test_hyp_rrse : ([0xC2, 0xB2, 0x10] : List Byte)[0]? = some 0xC2 ∧ classify 0xC2 = .analysis ∧
    classify 0xB2 = .version ∧ classify 0x10 = .hardware := by decide

/-- `RrseTakesSensorAnswersInOrder`: two answers on offer for two Hardware addresses, and for three, where they run out. -/
theorem test_rrse_answers_run_out :
    ((readSequence idle [0x10, 0xC2, 0xE0]).2.sensorAnswers = [] ∧ (readSequence idle [0x10, 0xC2, 0xE0]).2.draws = 0) ∧
    ((readSequence idle [0x10, 0xC2, 0xE0, 0x11]).2.sensorAnswers = [] ∧
      (readSequence idle [0x10, 0xC2, 0xE0, 0x11]).2.draws = 1) := by decide

/-- `RrseReplyLength`: 256 addresses, and the first port in hand. -/
theorem test_hyp_rrseLength : idle.hand < idle.ports.length ∧ (List.replicate 256 (0xC2 : Byte)).length ≤ 256 := by
  rw [List.length_replicate]
  decide

/-- `PollSetsTheClampedFrequency`, `PollRejectedWhileStreaming`, `PollCompletesForEitherPredicate`: each answer of the
predicate on offer, and none. -/
theorem test_hyp_poll : (asked false).conflictAnswers = false :: [] ∧ (∀ g, Operand.missing ≠ .ok g) ∧
    (asked true).conflictAnswers = true :: [] ∧ idle.conflictAnswers = [] :=
  ⟨rfl, fun _ => nofun, rfl, rfl⟩

/-- `InvalidDataWritesAndReadsNothing`: each clause; the value or the address invalid. -/
theorem test_hyp_invalid : ((∀ a, Operand.malformed ≠ .ok a) ∨ ∀ v, Operand.ok 1 ≠ .ok v) ∧
    ((∀ a, Operand.ok 1 ≠ .ok a) ∨ ∀ v, Operand.missing ≠ .ok v) ∧
    ∃ z ∈ [Operand.ok 0xC2, .malformed], ∀ a, z ≠ .ok a :=
  ⟨.inl fun _ => nofun, .inr fun _ => nofun, .malformed, by simp, fun _ => nofun⟩

/-- `BuildAckSerialisesTheReply`: the longest payload, and the port in hand one of the machine's
(`test_hyp_oneReply` is a reply among a command's outputs). -/
theorem test_hyp_buildAck : (List.replicate 1536 (0x41 : Byte)).length ≤ 1536 ∧ idle.hand < idle.ports.length := by
  rw [List.length_replicate]
  decide

/-- `CommandsFrame`: a key and a register no `WREG` addresses, and commands of each other kind. -/
theorem test_hyp_frame : (∀ a v, Instr.wreg (.ok 0xC0) (.ok 1) = .wreg (.ok a) (.ok v) → a.toNat ∈ storeKeys →
      (0xC1 : Nat) ≠ a.toNat) ∧
    (∀ a v, Instr.wreg (.ok 0xC0) (.ok 1) = .wreg (.ok a) (.ok v) → regAt a ≠ some .ysplit) ∧
    (∀ x y, Instr.poll .missing ≠ .wreg x y) ∧ (∀ f, Instr.rrse [] ≠ .poll f) ∧ (∀ a, Instr.poll .missing ≠ .rreg a) ∧
    (∀ l, Instr.poll .missing ≠ .rrse l) := by
  refine ⟨fun a v h _ => ?_, fun a v h => ?_, fun _ _ => nofun, fun _ => nofun, fun _ => nofun, fun _ => nofun⟩ <;>
    · cases h
      decide

/-- `AtMostOneReplyPerCommand`: a command that replies. -/
theorem test_hyp_oneReply : nextIs (exec (.rreg (.ok 0xC2)) idle) (fun t => t.outputs.any fun o =>
    match o with
    | .emitAck p _ => p == idle.hand
    | _ => false) = true := by rfl

/-- `QuadrantsPartitionTheFrame`: the splits at both ends of their range. -/
theorem test_hyp_quadrants : (1 ≤ 1 ∧ 1 ≤ 80 - 1 ∧ 1 ≤ 1 ∧ 1 ≤ 62 - 1) ∧ (1 ≤ 79 ∧ 79 ≤ 80 - 1 ∧ 1 ≤ 61 ∧ 61 ≤ 62 - 1)
    := by decide

/-- The statements about a recompute: a frame of the right size on offer, and one of another size. -/
theorem test_hyp_recompute :
    let f := List.replicate (80 * 62) (0 : Half)
    (machine [.reset] [.capture f]).bootPending = false ∧ (machine [.reset] [.capture f]).inputs = .capture f :: [] ∧
    f.length = idle.params.frameW * idle.params.frameH ∧
    ([] : List Half).length ≠ idle.params.frameW * idle.params.frameH := by
  refine ⟨rfl, rfl, ?_, by decide⟩
  rw [List.length_replicate]
  decide

/-- `EveryStepKeepsTheInvariant`: a state that meets it, and its step. -/
theorem test_hyp_invariant : (machine [.reset, .reset] [.byte 0 0x23]).Inv ∧
    ∃ t, step (machine [.reset, .reset] [.byte 0 0x23]) = .next t :=
  ⟨inv_of_reset_ports _, _, rfl⟩

/-- `BootLoadEstablishesTheCoordinates`, `BootLoadReadsStoreOrDefaults`: the state at reset. -/
theorem test_hyp_boot : State.reset.bootPending = true := rfl

/-- `PersistedSplitsSurviveHardReset`, `HardResetStep`, `IdleWhenNothingIsOffered`. -/
theorem test_hyp_hardReset : idle.bootPending = false ∧ idle.inputs = [] ∧
    (machine [.reset] [.hardReset]).bootPending = false ∧ (machine [.reset] [.hardReset]).inputs = .hardReset :: [] := by
  decide

/-- `EveryLegalEventHasANextState`: a chunk before another event, and what its step leaves on offer. -/
theorem test_chunk_expands : nextIs (step (machine [.reset] [.chunk 0 [0x23, 0x30], .hardReset])) (fun t =>
    t.inputs == [.byte 0 0x23, .byte 0 0x30, .hardReset]) = true := by decide

/-- `EveryLegalEventHasANextState`: a legal event of each kind. -/
theorem test_hyp_legal : Event.legal idle (.byte 1 0x23) ∧ Event.legal idle (.chunk 1 []) ∧ Event.legal idle (.sreset 1) ∧
    Event.legal idle (.capture (List.replicate (80 * 62) 0)) ∧ Event.legal idle .hardReset ∧
    (machine [.reset] [.byte 0 0x23]).inputs = .byte 0 0x23 :: [] ∧
    ∀ p bytes, Event.byte 0 0x23 ≠ .chunk p bytes := by
  refine ⟨show 1 < 2 by decide, show 1 < 2 by decide, show 1 < 2 by decide, ?_, trivial, rfl, fun _ _ => nofun⟩
  show (List.replicate _ _).length = _
  rw [List.length_replicate]
  decide

end Sys2Proof.Tests
end

/-! The dispatcher's reading of the command code (30_encoding.md R109, R110): `decodeBody` on each of the four codes, on
every other code, and the run of an unknown command. -/
section

namespace Sys2Proof

/-! ### `decodeBody` by command code -/

@[simp] theorem decodeBody_codeWreg (data : List Byte) :
    decodeBody codeWreg data = .wreg (operandAt data 0) (operandAt data 2) := rfl

@[simp] theorem decodeBody_codeRreg (data : List Byte) : decodeBody codeRreg data = .rreg (operandAt data 0) := rfl

@[simp] theorem decodeBody_codeRrse (data : List Byte) : decodeBody codeRrse data = .rrse (addrList data) := rfl

@[simp] theorem decodeBody_codePoll (data : List Byte) : decodeBody codePoll data = .poll (operandAt data 0) := rfl

theorem decodeBody_of_not_mem {cmd : Bytes4} (h : cmd ∉ [codeWreg, codeRreg, codeRrse, codePoll]) (data : List Byte) :
    decodeBody cmd data = .unknown cmd := by
  simp only [List.mem_cons, List.not_mem_nil, or_false, not_or] at h
  obtain ⟨hWreg, hRreg, hRrse, hPoll⟩ := h
  rw [decodeBody, if_neg hWreg, if_neg hRreg, if_neg hRrse, if_neg hPoll]

theorem decodeBody_ne_unknown_of_mem {cmd : Bytes4} (h : cmd ∈ [codeWreg, codeRreg, codeRrse, codePoll])
    (data : List Byte) (c : Bytes4) : decodeBody cmd data ≠ .unknown c := by
  simp only [List.mem_cons, List.not_mem_nil, or_false] at h
  obtain rfl | rfl | rfl | rfl := h
  · rw [decodeBody_codeWreg]; nofun
  · rw [decodeBody_codeRreg]; nofun
  · rw [decodeBody_codeRrse]; nofun
  · rw [decodeBody_codePoll]; nofun

end Sys2Proof

namespace Sys2Proof.Machine

/-! ### The run of an unknown command -/

@[simp] theorem exec_unknown (cmd : Bytes4) (s : State) : exec (.unknown cmd) s = .next (s.raise .unknownCommand) := rfl

/-- Settles O4: a code that fails all four tests of `decodeBody` reaches its last branch, whose run only raises
`UnknownCommand`; each of the four codes decodes to its own constructor. -/
theorem unknownIsEveryOtherCode : Obligations.UnknownIsEveryOtherCode := by
  unfold Obligations.UnknownIsEveryOtherCode
  intro cmd data s
  refine ⟨fun h => ?_, fun h => decodeBody_ne_unknown_of_mem h data⟩
  have hdec := decodeBody_of_not_mem h data
  exact ⟨hdec, by rw [hdec, exec_unknown, raise_eq_outputting]⟩

end Sys2Proof.Machine

end

/-! The frame parser of one port (40_frame_parser.md R133 to R146): `feed` as an equation for each parser state and count,
the step of a byte for each result the parser can give, and how many bytes a port is away from `SeekStart`. -/
section

namespace Sys2Proof

theorem bodyLimit_eq (len : Word32) : bodyLimit len = min (len.toNat - 4) 516 := rfl

/-- An accepted length is at least 8, so the body holds the command code (R134). -/
theorem four_le_bodyLimit {len : Word32} (h : lengthRejected len = false) : 4 ≤ bodyLimit len := by
  have hmin : ¬(len.toNat < 8 ∨ len = 0xFFFFFFFF) := fun hr => by simp [(lengthRejected_iff len).2 hr] at h
  rw [bodyLimit_eq]
  omega

theorem hexNumber_eq_none {w : List Byte} {c : Byte} (hc : c ∈ w) (h : hexval c = none) (n : Nat) :
    hexNumber w n = none := by
  induction w generalizing n with
  | nil => nomatch hc
  | cons d w ih =>
    rw [hexNumber]
    rcases List.mem_cons.1 hc with rfl | hc
    · rw [h]
    · split
      · exact ih hc _
      · rfl

/-- One character that is no hex digit spoils the whole length (R99). -/
theorem lenValue_of_invalid {f : Bytes4} {c : Byte} (hc : c ∈ f.toList) (h : hexval c = none) :
    lenValue f = 0xFFFFFFFF := by
  rw [lenValue, hex4, hexNumber_eq_none hc h]
  rfl

/-- The bytes `w` written one after the other from index `i` on. -/
def Bytes4.setFrom (f : Bytes4) (i : Nat) : List Byte → Bytes4
  | [] => f
  | b :: w => (f.set i b).setFrom (i + 1) w

end Sys2Proof

namespace Sys2Proof.Machine

/-! ### `feed` by parser state and count -/

section
variable {q : Port} {b : Byte}

theorem feed_start (hs : q.ps = .seekStart) : feed q 0x23 = ({ q.reInit with ps := .readLength }, .cont) := by
  simp [feed, hs, feedSeekStart, Config.start]

theorem feed_length (hs : q.ps = .readLength) (hc : q.cnt.toNat < 3) :
    feed q b =
      ({ q with lenField := q.lenField.set q.cnt.toNat b, acc := addByte q.acc b, cnt := q.cnt + 1 }, .cont) := by
  simp [feed, hs, feedReadLength, hc]

theorem feed_lengthRejected (hs : q.ps = .readLength) (hc : 3 ≤ q.cnt.toNat)
    (hr : lengthRejected (lenValue (q.lenField.set 3 b)) = true) :
    feed q b =
      ({ q with lenField := q.lenField.set 3 b, acc := addByte q.acc b,
                declaredLength := lenValue (q.lenField.set 3 b), cnt := 0, ps := .seekStart }, .reset) := by
  simp [feed, hs, feedReadLength, Nat.not_lt.2 hc, hr]

theorem feed_lengthAccepted (hs : q.ps = .readLength) (hc : 3 ≤ q.cnt.toNat)
    (hr : lengthRejected (lenValue (q.lenField.set 3 b)) = false) :
    feed q b =
      ({ q with lenField := q.lenField.set 3 b, acc := addByte q.acc b,
                declaredLength := lenValue (q.lenField.set 3 b), cnt := 0, ps := .readBody }, .cont) := by
  simp [feed, hs, feedReadLength, Nat.not_lt.2 hc, hr]

theorem feed_readBody (hs : q.ps = .readBody) :
    feed q b =
      ({ storeBody q b with
          ps := if (q.cnt + 1).toNat = bodyLimit q.declaredLength then .readChecksum else .readBody
          cnt := if (q.cnt + 1).toNat = bodyLimit q.declaredLength then 0 else q.cnt + 1 }, .cont) := by
  have hps : (storeBody q b).ps = .readBody := (storeBody_ps q b).trans hs
  simp only [feed, hs, feedReadBody, storeBody_cnt, storeBody_declaredLength]
  split
  · rfl
  · rw [← hps, ← storeBody_cnt q b, ← storeBody_declaredLength q b]

theorem feed_checksum (hs : q.ps = .readChecksum) (hc : q.cnt.toNat < 3) :
    feed q b = ({ q with csField := q.csField.set q.cnt.toNat b, cnt := q.cnt + 1 }, .cont) := by
  simp [feed, hs, feedReadChecksum, hc]

theorem feed_complete (hs : q.ps = .readChecksum) (hc : 3 ≤ q.cnt.toNat) :
    feed q b =
      ({ q with csField := q.csField.set 3 b, cnt := 0, ps := .seekStart },
        verdict (csumVerify q.acc (q.csField.set 3 b))) := by
  simp [feed, hs, feedReadChecksum, Nat.not_lt.2 hc]

theorem feed_result_seekStart (hs : q.ps = .seekStart) : (feed q b).2 = .cont := by
  simp only [feed, hs, feedSeekStart]
  split <;> rfl

end

/-! ### What every `Feed` step keeps, and when it answers something else than `Continue` -/

theorem verdict_ne_reset (ok : Bool) : verdict ok ≠ .reset := by cases ok <;> nofun

/-- The parser leaves the reply last built alone (10_state.md R41). -/
theorem feed_keeps_reply (q : Port) (b : Byte) :
    (feed q b).1.ack = q.ack ∧ (feed q b).1.ackLen = q.ackLen := by
  have h := feed_cases q b
  generalize feed q b = r at h ⊢
  cases h <;> simp

/-- A length is rejected on its fourth byte and at no other time (R134). -/
theorem readLength_of_feed_reset {q : Port} {b : Byte} (hr : (feed q b).2 = .reset) :
    q.ps = .readLength ∧ 3 ≤ q.cnt.toNat := by
  have h := feed_cases q b
  generalize feed q b = r at h hr
  cases h with
  | rejected hs hc => exact ⟨hs, hc⟩
  | complete => exact absurd hr (verdict_ne_reset _)
  | _ => nomatch hr

/-- R146 (a): the frame in hand is over after every result but `Continue`. -/
theorem feed_ps_of_result_ne_cont {q : Port} {b : Byte} (hr : (feed q b).2 ≠ .cont) :
    (feed q b).1.ps = .seekStart := by
  have h := feed_cases q b
  generalize feed q b = r at h hr ⊢
  cases h with
  | rejected => rfl
  | complete => rfl
  | _ => exact absurd rfl hr

/-- A body byte below the limit of 516 leaves at most 512 data bytes. -/
theorem storeBody_dataLen_le {q : Port} (hlen : q.dataLen.toNat ≤ 512) (hcnt : q.cnt.toNat < 516) (b : Byte) :
    (storeBody q b).dataLen.toNat ≤ 512 := by
  rw [storeBody_dataLen]
  split <;> bv_omega

/-- R146 (c): from a legal port the counters stay in bounds. -/
theorem feed_countersOk {q : Port} (hq : q.Ok) (b : Byte) : (feed q b).1.countersOk := by
  obtain ⟨⟨hlen, hcnt⟩, hphase, -⟩ := hq
  have h := feed_cases q b
  generalize feed q b = r at h ⊢
  cases h with
  | skip => exact ⟨hlen, hcnt⟩
  | start => exact ⟨by simp, by simp⟩
  | length hs hc =>
    refine ⟨hlen, ?_⟩
    simp only [hs]
    bv_omega
  | rejected => exact ⟨hlen, rfl⟩
  | accepted => exact ⟨hlen, by simp⟩
  | body hs hn =>
    simp only [Port.phaseOk, hs, bodyLimit_eq] at hphase
    rw [bodyLimit_eq] at hn
    refine ⟨storeBody_dataLen_le hlen (by omega) b, ?_⟩
    simp only [storeBody_ps, storeBody_cnt, hs]
    bv_omega
  | bodyEnd hs =>
    simp only [Port.phaseOk, hs, bodyLimit_eq] at hphase
    exact ⟨storeBody_dataLen_le hlen (by omega) b, by simp⟩
  | checksum hs hc =>
    refine ⟨hlen, ?_⟩
    simp only [hs]
    bv_omega
  | complete => exact ⟨hlen, rfl⟩

/-! ### The step of a byte by its result -/

section
variable {s : State} {p : Nat} {b : Byte} {rest : List Event}

theorem step_byte (hb : s.bootPending = false) (hi : s.inputs = .byte p b :: rest) :
    step s = feedPort p b { s with inputs := rest } := step_event hb hi

theorem feedPort_cont {q : Port} (hp : p < s.ports.length) (hf : feed (s.port p) b = (q, .cont)) :
    feedPort p b s = .next { s with
      hand := p, ports := s.ports.set p q, outputs := s.outputs ++ [.result p .cont] } := by
  rw [feedPort_eq b hp, hf]
  rfl

theorem feedPort_reset {q : Port} (hp : p < s.ports.length) (hf : feed (s.port p) b = (q, .reset)) :
    feedPort p b s = .next { s with
      hand := p, ports := s.ports.set p q
      outputs := s.outputs ++ [.diag p .lengthRejected, .result p .reset] } := by
  rw [feedPort_eq b hp, hf]
  simp [afterFeed, withResult, State.raise, State.emit]

theorem feedPort_completeFail {q : Port} (hp : p < s.ports.length) (hf : feed (s.port p) b = (q, .completeFail)) :
    feedPort p b s = .next { s with
      hand := p, ports := s.ports.set p q
      outputs := s.outputs ++ [.diag p .checksumMismatch, .result p .completeFail] } := by
  rw [feedPort_eq b hp, hf]
  simp [afterFeed, withResult, State.raise, State.emit]

/-- Both ways to lose a frame (R140): the port, a diagnostic, the result, and nothing else. -/
theorem feedPort_failed (hp : p < s.ports.length)
    (hr : (feed (s.port p) b).2 = .reset ∨ (feed (s.port p) b).2 = .completeFail) :
    ∃ e r, feedPort p b s = .next { s.setPort p (feed (s.port p) b).1 with
      hand := p, outputs := s.outputs ++ [.diag p e, .result p r] } := by
  rcases hr with hr | hr
  · exact ⟨_, _, feedPort_reset hp (Prod.ext rfl hr)⟩
  · exact ⟨_, _, feedPort_completeFail hp (Prod.ext rfl hr)⟩

end

/-! ### The span of a frame (R146 (b)) -/

/-- `q` is back in `SeekStart` after `n` more bytes and not before, whatever they are. In `ReadLength` the length is not
known yet, so no number does. -/
inductive Port.BytesLeft (q : Port) : Nat → Prop
  | idle (hs : q.ps = .seekStart) : BytesLeft q 0
  | checksum {n : Nat} (hs : q.ps = .readChecksum) (hc : q.cnt.toNat + (n + 1) = 4) : BytesLeft q (n + 1)
  | body {n : Nat} (hs : q.ps = .readBody) (hc : q.cnt.toNat + (n + 1) = bodyLimit q.declaredLength) :
      BytesLeft q (n + 1 + 4)

theorem Port.BytesLeft.ps_eq_iff {q : Port} {n : Nat} (h : q.BytesLeft n) : q.ps = .seekStart ↔ n = 0 := by
  cases h with
  | idle hs => simp [hs]
  | checksum hs => simp [hs]
  | body hs => simp [hs]

/-- Every byte brings the port one byte nearer to `SeekStart`. -/
theorem Port.BytesLeft.feed {q : Port} {n : Nat} (h : q.BytesLeft (n + 1)) (b : Byte) :
    (Machine.feed q b).1.BytesLeft n := by
  cases h with
  | checksum hs hc =>
    cases n with
    | zero => rw [feed_complete hs (by omega)]; exact .idle rfl
    | succ n =>
      rw [feed_checksum hs (by omega)]
      exact .checksum hs (by dsimp only; bv_omega)
  | @body m hs hc =>
    have hlim := bodyLimit_eq q.declaredLength
    have hcnt : (q.cnt + 1).toNat = q.cnt.toNat + 1 := by bv_omega
    cases m with
    | zero =>
      rw [feed_readBody hs, if_pos (by omega), if_pos (by omega)]
      exact .checksum rfl rfl
    | succ m =>
      rw [feed_readBody hs, if_neg (by omega), if_neg (by omega)]
      exact .body rfl (by dsimp only; rw [storeBody_declaredLength]; omega)

theorem Port.BytesLeft.feedAll {n : Nat} {w : List Byte} :
    ∀ {q : Port}, q.BytesLeft (n + w.length) → (Machine.feedAll q w).1.BytesLeft n := by
  induction w with
  | nil => exact fun h => h
  | cons b w ih => exact fun h => ih (h.feed b)

/-- Bytes fed within the first three of the length field only fill it. -/
theorem feedAll_length {w : List Byte} : ∀ {q : Port}, q.ps = .readLength → q.cnt.toNat + w.length ≤ 3 →
    feedAll q w =
      ({ q with lenField := q.lenField.setFrom q.cnt.toNat w, acc := w.foldl addByte q.acc,
                cnt := q.cnt + BitVec.ofNat 10 w.length }, List.replicate w.length .cont) := by
  induction w with
  | nil => intro q _ _; simp [Bytes4.setFrom]
  | cons b w ih =>
    intro q hs hc
    rw [List.length_cons] at hc
    have hcnt : (q.cnt + 1).toNat = q.cnt.toNat + 1 := by bv_omega
    rw [feedAll_cons, feed_length hs (by omega)]
    dsimp only
    rw [ih (by exact hs) (by dsimp only; omega), hcnt]
    simp [Bytes4.setFrom, List.replicate_succ, BitVec.ofNat_add, BitVec.add_assoc, BitVec.add_comm 1#10]

/-- After the start marker and fewer than four characters the parser is still in the length. -/
theorem feedAll_marker_length {q : Port} (hs : q.ps = .seekStart) {w : List Byte} (hw : w.length < 4) :
    (feedAll q (0x23 :: w)).1 =
      { q.reInit with ps := .readLength, lenField := Bytes4.zero.setFrom 0 w, acc := w.foldl addByte 0,
                      cnt := BitVec.ofNat 10 w.length } := by
  rw [feedAll_cons, feed_start hs, feedAll_length rfl (by simpa using Nat.le_of_lt_succ hw)]
  simp

/-- The fourth length byte fixes the span: after a rejection the port is in `SeekStart`, else the body limit and the four
checksum characters are to come. -/
theorem feed_fourthLength_bytesLeft {q : Port} (hs : q.ps = .readLength) (hc : 3 ≤ q.cnt.toNat) (b : Byte) :
    (feed q b).1.BytesLeft
      (if lengthRejected (lenValue (q.lenField.set 3 b)) then 0
        else bodyLimit (lenValue (q.lenField.set 3 b)) + 4) := by
  cases hr : lengthRejected (lenValue (q.lenField.set 3 b)) with
  | true =>
    rw [feed_lengthRejected hs hc hr]
    exact .idle rfl
  | false =>
    have hpos := four_le_bodyLimit hr
    obtain ⟨n, hn⟩ := Nat.exists_eq_add_of_lt (show 0 < bodyLimit (lenValue (q.lenField.set 3 b)) by omega)
    rw [feed_lengthAccepted hs hc hr, if_neg (by simp), hn]
    exact .body rfl (hn ▸ Nat.zero_add _)

/-- The start marker and a whole length field. -/
theorem feedAll_marker_length_bytesLeft {q : Port} (hs : q.ps = .seekStart) (len : Bytes4) :
    (feedAll q (0x23 :: len.toList)).1.BytesLeft
      (if lengthRejected (lenValue len) then 0 else bodyLimit (lenValue len) + 4) := by
  have hsplit : (0x23 : Byte) :: len.toList = (0x23 :: [len.b0, len.b1, len.b2]) ++ [len.b3] := rfl
  rw [hsplit, feedAll_append, feedAll_marker_length hs (by simp)]
  refine feed_fourthLength_bytesLeft rfl ?_ len.b3
  exact Nat.le_refl 3

/-! ### The statements -/

/-- Settles O6: the branch of `ReadLength` for a count below 3. -/
theorem lengthBytesStoredAndSummed : Obligations.LengthBytesStoredAndSummed := by
  unfold Obligations.LengthBytesStoredAndSummed
  exact fun q b hs hc => feed_length hs hc

/-- Settles O7: the fourth length byte makes a `Reset` or a `Continue` step of its port, by R134's test. -/
theorem fourthLengthByteDecides : Obligations.FourthLengthByteDecides := by
  unfold Obligations.FourthLengthByteDecides
  intro s p b rest hb hi hp hs hc
  have h3 : 3 ≤ (s.port p).cnt.toNat := by simp [hc]
  refine ⟨fun hr => ?_, fun hr => ?_, fun ⟨_, hmem, hinv⟩ => lenValue_of_invalid hmem hinv,
    fun _ _ => readLength_of_feed_reset⟩
  · rw [step_byte hb hi]
    exact feedPort_reset (s := { s with inputs := rest }) hp (feed_lengthRejected hs h3 ((lengthRejected_iff _).2 hr))
  · rw [step_byte hb hi]
    exact feedPort_cont (s := { s with inputs := rest }) hp
      (feed_lengthAccepted hs h3 (Bool.eq_false_iff.2 (mt (lengthRejected_iff _).1 hr)))

/-- Settles O8: the store of R135 field by field, then the transition of R136, which touches neither field. -/
theorem bodyBytesStoredUpToTheLimit : Obligations.BodyBytesStoredUpToTheLimit := by
  unfold Obligations.BodyBytesStoredUpToTheLimit
  intro q b hs hwf
  rw [feed_readBody hs, ← bodyLimit_eq]
  refine ⟨rfl, storeBody_acc q b, storeBody_lenField q b, storeBody_declaredLength q b, storeBody_csField q b,
    storeBody_ack q b, storeBody_ackLen q b, fun hc => ?_, fun hc => ?_, fun hl => ⟨if_pos hl, if_pos hl⟩,
    fun hl => ⟨if_neg hl, if_neg hl⟩⟩
  · simp [storeBody_cmd, storeBody_data, storeBody_dataLen, hc]
  · have hnot : ¬q.cnt.toNat < 4 := Nat.not_lt.2 hc
    have hread := Memory.read_write hwf (q.cnt.toNat - 4) b
    refine ⟨by rw [storeBody_cmd, if_neg hnot], by rw [storeBody_dataLen, if_neg hnot], fun hlt => ?_, fun i hi => ?_⟩
    · rw [storeBody_data, if_neg hnot, hread, if_pos ⟨rfl, by simp only [Config.dataCap]; omega⟩]
    · rw [storeBody_data, if_neg hnot, hread, if_neg fun h => hi h.1.symm]

/-- Settles O9, row by row of R138: one equation of `feed` for each state and count. -/
theorem feedResultByState : Obligations.FeedResultByState := by
  unfold Obligations.FeedResultByState
  intro q b
  refine ⟨feed_result_seekStart, fun hs hc => ?_, fun hs hc => ?_, fun hs => ?_, fun hs hc => ?_, fun hs hc => ?_⟩
  · rw [feed_length hs hc]
  · have h3 : 3 ≤ q.cnt.toNat := by simp [hc]
    cases hr : lengthRejected (lenValue (q.lenField.set 3 b)) with
    | true => rw [feed_lengthRejected hs h3 hr]; rfl
    | false => rw [feed_lengthAccepted hs h3 hr]; rfl
  · rw [feed_readBody hs]
  · rw [feed_checksum hs hc]
  · rw [feed_complete hs (by simp [hc])]; rfl

/-- Settles O13: such a step writes its own port, whose reply the parser leaves alone, and two outputs. -/
theorem failedFramesHaveNoEffect : Obligations.FailedFramesHaveNoEffect := by
  unfold Obligations.FailedFramesHaveNoEffect
  intro s p b rest hb hi hp hr
  obtain ⟨e, r, ht⟩ := feedPort_failed (s := { s with inputs := rest }) hp hr
  have hself := State.port_setPort_self hp (feed (s.port p) b).1
  obtain ⟨hack, hackLen⟩ := feed_keeps_reply (s.port p) b
  exact ⟨_, e, r, (step_byte hb hi).trans ht, rfl, rfl, rfl, rfl, rfl, rfl,
    fun p' hne => State.port_setPort_of_ne (s := s) hne _,
    (congrArg Port.ack hself).trans hack, (congrArg Port.ackLen hself).trans hackLen⟩

/-- Settles O14: (a) and (c) are facts of one `Feed` step; for (b), a marker and a length fix how many bytes are left,
and every further byte counts one down. -/
theorem parserSpanIsFixedByTheLength : Obligations.ParserSpanIsFixedByTheLength := by
  unfold Obligations.ParserSpanIsFixedByTheLength
  refine ⟨fun _ _ => feed_ps_of_result_ne_cont, fun q len tail hs => ?_, fun _ b hq => feed_countersOk hq b⟩
  have hleft := feedAll_marker_length_bytesLeft hs len
  refine ⟨fun n hn => ?_, fun hr => ?_, fun hr => ?_⟩
  · dsimp only
    rw [feedAll_marker_length hs (by rw [List.length_take]; omega)]
    nofun
  · rw [if_pos hr] at hleft
    exact hleft.ps_eq_iff.2 rfl
  · rw [if_neg (by simp [hr]), bodyLimit_eq] at hleft
    have hafter {n : Nat} (hn : min ((lenValue len).toNat - 4) 516 + 4 = n + tail.length) :
        (feedAll q (0x23 :: (len.toList ++ tail))).1.BytesLeft n := by
      rw [← List.cons_append, feedAll_append]
      exact Port.BytesLeft.feedAll (hn ▸ hleft)
    refine ⟨fun hlt => ?_, fun heq => ?_⟩
    · obtain ⟨n, hn⟩ := Nat.exists_eq_add_of_lt hlt
      exact fun h => by have := (hafter (n := n + 1) (by omega)).ps_eq_iff.1 h; omega
    · exact (hafter (n := 0) (by omega)).ps_eq_iff.2 rfl

end Sys2Proof.Machine

end

/-! The register broker (41_register_broker.md R174 to R182): `brokerRead` for each class of address, `brokerWrite` on a
key of the durable store and off the keys, and what the store answers after an `nv_put`. -/
section

namespace Sys2Proof.Machine

/-! ### Reads by class -/

/-- An Analysis address is the address of a VRT register. -/
theorem exists_addr_of_analysis {a : Byte} (h : classify a = .analysis) : ∃ r : Reg, a = r.addr := by
  obtain ⟨r, hr⟩ := regAt_isSome h
  exact ⟨r, regAt_eq_some.1 hr⟩

@[simp] theorem brokerRead_addr (s : State) (r : Reg) : brokerRead s r.addr = (s.vrt.readReg r, s) := by
  rw [brokerRead, classify_addr, regAt_addr]

theorem brokerRead_of_version {a : Byte} (h : classify a = .version) (s : State) :
    brokerRead s a = (.w8 (s.verRead a).1, (s.verRead a).2) := by
  rw [brokerRead, h]

theorem brokerRead_of_hardware {a : Byte} (h : classify a = .hardware) (s : State) :
    brokerRead s a = (.w8 (s.hwRead a).1, (s.hwRead a).2) := by
  rw [brokerRead, h]

@[simp] theorem State.hwRead_outputs (s : State) (a : Byte) : (s.hwRead a).2.outputs = s.outputs ++ [.hwRead a] := by
  rcases s.hwRead_eq a with ⟨v, rest, -, h⟩ | ⟨-, h⟩ <;> rw [h]

/-- An answer on offer is the value of the call, and is used up by it (10_state.md R39). -/
theorem State.hwRead_of_answer {s : State} {x : Byte} {rest : List Byte} (h : s.sensorAnswers = x :: rest) (a : Byte) :
    s.hwRead a = (x, { s with sensorAnswers := rest, outputs := s.outputs ++ [.hwRead a] }) := by
  rw [State.hwRead, h]
  rfl

/-- A read makes the calls of its class and no other (R174). -/
theorem brokerRead_outputs (s : State) (a : Byte) : (brokerRead s a).2.outputs = s.outputs ++ readCalls a := by
  unfold readCalls
  cases hc : classify a with
  | analysis =>
    obtain ⟨r, rfl⟩ := exists_addr_of_analysis hc
    simp
  | version =>
    rw [brokerRead_of_version hc]
    rfl
  | hardware =>
    rw [brokerRead_of_hardware hc]
    exact s.hwRead_outputs a

/-! ### Writes on the ten keys and off them -/

theorem State.nvGet_nvPut (s : State) (k v x : Byte) :
    (s.nvPut k v).nvGet x = if k = x then some v else s.nvGet x := by
  simp only [State.nvGet, State.nvPut_store, Memory.lookup_insert, BitVec.toNat_inj]

/-- A coordinate register reads, in 8 bits, as the byte it holds. -/
theorem readReg_of_coordinate {t : Vrt} {r : Reg} {b : Byte} (h : t.coordinate r = some b) : t.readReg r = .w8 b := by
  cases r with
  | max | center | burnT => nomatch h
  | xsplit | ysplit | burnX | burnY => exact congrArg RegValue.w8 (Option.some.inj h)

/-- A write of a coordinate register stores the byte `b` it then holds, and persists that byte (R181). -/
theorem brokerWrite_of_writable {r : Reg} (h : r.writable = true) (s : State) (v : Byte) :
    ∃ b, (Vrt.writeReg s.params s.vrt r v).coordinate r = some b ∧
      brokerWrite s r.addr v = (.ok, ({ s with vrt := Vrt.writeReg s.params s.vrt r v } : State).nvPut r.addr b) := by
  rw [← coordinate_isSome (Vrt.writeReg s.params s.vrt r v) r] at h
  obtain ⟨b, hb⟩ := Option.isSome_iff_exists.1 h
  exact ⟨b, hb, by rw [brokerWrite_addr, writeAnalysis, hb]⟩

/-- Off the ten keys, a write of an Analysis or Version address is ignored (R182). -/
theorem brokerWrite_of_not_key {a : Byte} (hc : classify a ≠ .hardware) (hk : a.toNat ∉ storeKeys) (s : State)
    (v : Byte) : brokerWrite s a v = (.ignored, s) := by
  rcases brokerWrite_eq s a v with ⟨hhw, -⟩ | hign | ⟨r, b, -, hr, hb, -⟩
  · exact absurd hhw hc
  · exact hign
  · exact absurd (List.contains_iff_mem.1 (storeKeys_of_coordinate hr hb)) hk

theorem brokerWrite_of_hardware {a : Byte} (h : classify a = .hardware) (s : State) (v : Byte) :
    brokerWrite s a v = (.ok, s.hwWrite a v) := by
  rw [brokerWrite, h]

/-- An ignored write does nothing. -/
theorem brokerWrite_state_of_ignored {s : State} {a v : Byte} (h : (brokerWrite s a v).1 = .ignored) :
    (brokerWrite s a v).2 = s := by
  rcases brokerWrite_eq s a v with ⟨-, hw⟩ | hw | ⟨r, b, -, -, -, hw⟩
  · rw [hw] at h; nomatch h
  · rw [hw]
  · rw [hw] at h; nomatch h

/-- `WREG` replies after the write, whatever its result (42_command_dispatch_ack.md R206). -/
theorem exec_wreg_ok (a v : Byte) (s : State) :
    exec (.wreg (.ok a) (.ok v)) s = .next ((brokerWrite s a v).2.buildAck codeWreg []) := rfl

/-! ### The statements -/

/-- Settles O25, class by class: an Analysis address is that of a register; a Version address is the lower one or the
other; a Hardware address takes the sensor's answer on offer. -/
theorem brokerReadsByClass : Obligations.BrokerReadsByClass := by
  unfold Obligations.BrokerReadsByClass
  intro s a
  refine ⟨brokerRead_same s a, brokerRead_outputs s a, fun hc => ?_, fun hc => ?_, fun hc => ?_⟩
  · obtain ⟨r, rfl⟩ := exists_addr_of_analysis hc
    rw [brokerRead_addr]
    exact ⟨rfl, r, regAt_addr r, rfl⟩
  · rw [brokerRead_of_version hc]
    rfl
  · rw [brokerRead_of_hardware hc]
    refine ⟨_, rfl, fun x rest hx => ?_⟩
    rw [State.hwRead_of_answer hx]
    exact ⟨rfl, rfl⟩

/-- Settles O31: a key is the address of a coordinate register, whose write persists the byte it then holds; off the keys
a write is one `hw_write` or nothing. -/
theorem acceptedWritesArePersisted : Obligations.AcceptedWritesArePersisted := by
  unfold Obligations.AcceptedWritesArePersisted
  intro s a v
  refine ⟨fun hk => ?_, fun hk => ?_, brokerWrite_state_of_ignored⟩
  · obtain ⟨r, rfl, hr⟩ := mem_storeKeys.1 hk
    obtain ⟨b, hb, hw⟩ := brokerWrite_of_writable hr s v
    rw [hw, brokerRead_addr]
    refine ⟨b, readReg_of_coordinate hb, by rw [State.nvGet_nvPut, if_pos rfl], rfl, fun k hne => ?_⟩
    rw [State.nvGet_nvPut, if_neg hne.symm]
    rfl
  · by_cases hc : classify a = .hardware
    · rw [brokerWrite_of_hardware hc]
      exact ⟨rfl, fun k x hmem => by simpa using hmem⟩
    · rw [brokerWrite_of_not_key hc hk]
      exact ⟨rfl, fun _ _ hmem => hmem⟩

/-- Settles O30: none of these addresses is Hardware and none is a key. -/
theorem wregIgnoredWritesOnlyReply : Obligations.WregIgnoredWritesOnlyReply := by
  unfold Obligations.WregIgnoredWritesOnlyReply
  intro s a v ha
  have hc : classify a ≠ .hardware := by
    rw [classify_eq]
    split
    · nofun
    · rw [if_pos (by omega)]
      nofun
  have hk : a.toNat ∉ storeKeys := by
    simp only [storeKeys, List.mem_cons, List.not_mem_nil, or_false]
    omega
  have hw := brokerWrite_of_not_key hc hk s v
  exact ⟨hw, by rw [exec_wreg_ok, hw, buildAck_eq_replied]⟩

end Sys2Proof.Machine

end

/-! Command dispatch and the reply (42_command_dispatch_ack.md R204, R209): what a command does before its reply, the
code its reply carries, and how the reply is laid out. -/
section

namespace Sys2Proof

/-- Decoding keeps the command code received: each branch of `decodeBody` makes the instruction of the code it tested. -/
@[simp] theorem code_decodeBody (cmd : Bytes4) (data : List Byte) : (decodeBody cmd data).code = cmd := by
  by_cases h : cmd ∈ [codeWreg, codeRreg, codeRrse, codePoll]
  · simp only [List.mem_cons, List.not_mem_nil, or_false] at h
    obtain rfl | rfl | rfl | rfl := h <;> rfl
  · rw [decodeBody_of_not_mem h]
    rfl

/-- An operand is read from the two bytes at its place; what follows them is ignored. -/
theorem operandAt_zero_of_hex2 {c0 c1 a : Byte} (h : hex2 c0 c1 = some a) (more : List Byte) :
    operandAt (c0 :: c1 :: more) 0 = .ok a := by
  simp only [operandAt, List.drop_zero, h]

end Sys2Proof

namespace Sys2Proof.Machine

/-! ### The layout of a reply -/

/-- The four characters after the fillers and `'#'` declare the length of the body with its checksum. -/
theorem ackFrame_declaredLength (f : Byte) (c : Bytes4) (m : List Byte) :
    ((ackFrame f c m).drop 4).take 4 = hexText4 (BitVec.ofNat 16 (8 + m.length)) := rfl

/-- The text of a value is written in one of two ways, for an Analysis address or for any other (R208). -/
theorem valueChars_eq (c : AddrClass) (v : RegValue) :
    valueChars c v = if c = .analysis then hexText4 v.zext16 else hexText2 (v.zext16.setWidth 8) := by
  cases c <;> rfl

theorem exec_rreg_ok (a : Byte) (s : State) :
    exec (.rreg (.ok a)) s = .next ((valueText s a).2.buildAck codeRreg (valueText s a).1) := rfl

/-! ### What a command does before its reply -/

theorem emitAck_notMem_readCalls (a : Byte) (p : Nat) (bytes : List Byte) : .emitAck p bytes ∉ readCalls a := by
  unfold readCalls
  cases classify a <;> simp

/-- The reads of an `RRSE` make the calls of its addresses in order (R211). -/
theorem readSequence_outputs (s : State) (l : List Byte) :
    (readSequence s l).2.outputs = s.outputs ++ l.flatMap readCalls := by
  induction l generalizing s with
  | nil => simp [readSequence]
  | cons a l ih =>
    calc (readSequence s (a :: l)).2.outputs
        = (valueText s a).2.outputs ++ l.flatMap readCalls := ih _
      _ = s.outputs ++ readCalls a ++ l.flatMap readCalls := by rw [valueText, brokerRead_outputs]
      _ = s.outputs ++ (a :: l).flatMap readCalls := by rw [List.append_assoc, List.flatMap_cons]

/-- `u` came of `s` with no reply sent and nothing changed that a reply is made from, but the ports. -/
structure UnrepliedSince (s u : State) : Prop where
  params : u.params = s.params
  hand : u.hand = s.hand
  outputs : ∃ o, u.outputs = s.outputs ++ o ∧ ∀ p bytes, .emitAck p bytes ∉ o

theorem UnrepliedSince.raise (s : State) (e : ErrorKind) : UnrepliedSince s (s.raise e) :=
  ⟨rfl, rfl, _, rfl, by simp⟩

theorem UnrepliedSince.setPoll (s : State) (f : Byte) : UnrepliedSince s (s.setPoll f) :=
  ⟨rfl, rfl, _, rfl, by simp⟩

theorem UnrepliedSince.trans {s t u : State} (h : UnrepliedSince s t) (h' : UnrepliedSince t u) :
    UnrepliedSince s u := by
  obtain ⟨o, ho, hno⟩ := h.outputs
  obtain ⟨o', ho', hno'⟩ := h'.outputs
  refine ⟨h'.params.trans h.params, h'.hand.trans h.hand, o ++ o', by rw [ho', ho, List.append_assoc], ?_⟩
  intro p bytes hmem
  rcases List.mem_append.1 hmem with hmem | hmem
  · exact hno p bytes hmem
  · exact hno' p bytes hmem

theorem UnrepliedSince.readSequence (s : State) (l : List Byte) : UnrepliedSince s (readSequence s l).2 := by
  have hsame := readSequence_same s l
  refine ⟨hsame.params, hsame.hand, _, readSequence_outputs s l, fun p bytes hmem => ?_⟩
  obtain ⟨a, -, ha⟩ := List.mem_flatMap.1 hmem
  exact emitAck_notMem_readCalls a p bytes ha

theorem UnrepliedSince.valueText (s : State) (a : Byte) : UnrepliedSince s (valueText s a).2 :=
  ⟨(valueText_same s a).params, (valueText_same s a).hand, _, brokerRead_outputs s a, emitAck_notMem_readCalls a⟩

theorem UnrepliedSince.brokerWrite (s : State) (a v : Byte) : UnrepliedSince s (brokerWrite s a v).2 := by
  rcases brokerWrite_eq s a v with ⟨-, hw⟩ | hw | ⟨r, b, -, -, -, hw⟩ <;> rw [hw]
  · exact ⟨rfl, rfl, _, rfl, by simp⟩
  · exact ⟨rfl, rfl, [], by simp, by simp⟩
  · exact ⟨rfl, rfl, _, rfl, by simp⟩

theorem UnrepliedSince.streamConflict (s : State) : UnrepliedSince s s.streamConflict.2 := by
  rcases s.streamConflict_eq with ⟨v, rest, -, h⟩ | ⟨-, h⟩ <;> rw [h]
  · exact ⟨rfl, rfl, [], by simp, by simp⟩
  · exact ⟨rfl, rfl, [], by simp, by simp⟩

/-- Every command makes its calls and diagnostics first, and then replies with its own code or not at all. -/
theorem exec_replies_last (i : Instr) (s : State) :
    ∃ u, UnrepliedSince s u ∧ (exec i s = .next u ∨ ∃ payload, exec i s = .next (u.buildAck i.code payload)) := by
  obtain ⟨t, ht, hcase⟩ := exec_cases i s
  rw [ht]
  cases hcase with
  | wreg a v => exact ⟨_, .brokerWrite s a v, .inr ⟨_, rfl⟩⟩
  | wregInvalid => exact ⟨_, .raise s _, .inr ⟨_, rfl⟩⟩
  | rreg a => exact ⟨_, .valueText s a, .inr ⟨_, rfl⟩⟩
  | rregInvalid => exact ⟨_, .raise s _, .inl rfl⟩
  | rrse l => exact ⟨_, .readSequence s l, .inr ⟨_, rfl⟩⟩
  | rrseInvalid => exact ⟨_, .raise s _, .inl rfl⟩
  | pollConflict => exact ⟨_, .trans (.streamConflict s) (.raise _ _), .inl rfl⟩
  | poll x =>
    rcases pollAllowed_eq x s.streamConflict.2 with ⟨f, -, h⟩ | ⟨-, h⟩ <;> rw [h]
    · exact ⟨_, .trans (.streamConflict s) (.setPoll _ _), .inr ⟨_, rfl⟩⟩
    · exact ⟨_, .trans (.streamConflict s) (.raise _ _), .inr ⟨_, rfl⟩⟩
  | unknown => exact ⟨_, .raise s _, .inl rfl⟩

/-- The outputs of a command: a reply among them comes of the port in hand and carries the command's own code. -/
theorem exec_reply_code (i : Instr) (s : State) :
    ∃ t o, exec i s = .next t ∧ t.outputs = s.outputs ++ o ∧
      ∀ p bytes, .emitAck p bytes ∈ o →
        p = s.hand ∧ ∃ payload, bytes = ackFrame s.params.ackFiller i.code payload := by
  obtain ⟨u, hu, hexec⟩ := exec_replies_last i s
  obtain ⟨o, ho, hno⟩ := hu.outputs
  rcases hexec with h | ⟨payload, h⟩
  · exact ⟨u, o, h, ho, fun p bytes hmem => absurd hmem (hno p bytes)⟩
  · refine ⟨_, o ++ [.emitAck s.hand (ackFrame s.params.ackFiller i.code payload)], h, ?_, fun p bytes hmem => ?_⟩
    · rw [State.buildAck_outputs, ho, hu.hand, hu.params, List.append_assoc]
    · rcases List.mem_append.1 hmem with hmem | hmem
      · exact absurd hmem (hno p bytes)
      · obtain ⟨rfl, rfl⟩ := Output.emitAck.inj (List.mem_singleton.1 hmem)
        exact ⟨rfl, payload, rfl⟩

/-! ### The statements -/

/-- Settles O42: the encoder's frame is the one written out, its count fits 11 bits up to 1536 payload bytes; and the
code of a command's reply is that of the instruction, which decoding took from the frame. -/
theorem buildAckSerialisesTheReply : Obligations.BuildAckSerialisesTheReply := by
  unfold Obligations.BuildAckSerialisesTheReply
  intro s cmd f reply
  have hreply : ∀ payload, reply payload = ackFrame f cmd payload := fun _ => rfl
  refine ⟨fun payload hlen _ => ⟨BitVec.ofNat 11 (16 + payload.length), ?_, ?_, rfl⟩, fun data => ?_⟩
  · rw [BitVec.toNat_ofNat, Nat.mod_eq_of_lt (by omega)]
  · rw [hreply, ackFrame_length]
  · have h := exec_reply_code (decodeBody cmd data) s
    rwa [code_decodeBody] at h

/-- Settles O34: the reply's text is that of the value read, four characters or two by the class of the address. -/
theorem rregRepliesWithTheValue : Obligations.RregRepliesWithTheValue := by
  unfold Obligations.RregRepliesWithTheValue
  intro s a r text
  have htext : valueText s a = (text, r.2) := by rw [valueText, valueChars_eq]
  refine ⟨?_, brokerRead_same s a, brokerRead_outputs s a, fun hc => ?_, fun hc => ?_, fun c0 c1 more hhex => ?_⟩
  · rw [exec_rreg_ok, htext, buildAck_eq_replied]
  · have hlen : text.length = 4 := by simp [text, hc]
    rw [ackFrame_length, ackFrame_declaredLength, hlen]
    decide
  · have hlen : text.length = 2 := by simp [text, hc]
    rw [ackFrame_length, ackFrame_declaredLength, hlen]
    decide
  · rw [decodeBody_codeRreg, operandAt_zero_of_hex2 hhex]

end Sys2Proof.Machine

end

/-! The quadrant reducer (43_quadrant_reducer.md R252, R260): which side of each split a quadrant is on, how many pixels
of the raster it holds, and what the step of a captured frame is. -/
section

namespace Sys2Proof.Machine

/-! ### Membership -/

/-- A quadrant is given by its two sides. -/
theorem quadrant_eq_iff_sides (q q' : Quadrant) : q = q' ↔ (isLeft q ↔ isLeft q') ∧ (isTop q ↔ isTop q') := by
  cases q <;> cases q' <;> decide

theorem isLeft_quadOf (xs ys x y : Nat) : isLeft (quadOf xs ys x y) ↔ x < xs := by
  unfold quadOf
  split
  · split <;> simp [isLeft, *]
  · split <;> simp [isLeft, *]

theorem isTop_quadOf (xs ys x y : Nat) : isTop (quadOf xs ys x y) ↔ y < ys := by
  unfold quadOf
  split
  · split <;> simp [isTop, *]
  · split <;> simp [isTop, *]

/-- `Quad(x, y)` is decided on each axis by itself: the side of `xsplit` that `x` is on, and the side of `ysplit` that
`y` is on (R252). -/
theorem quadOf_eq_iff {xs ys x y : Nat} {q : Quadrant} :
    quadOf xs ys x y = q ↔ (isLeft q ↔ x < xs) ∧ (isTop q ↔ y < ys) := by
  rw [eq_comm, quadrant_eq_iff_sides, isLeft_quadOf, isTop_quadOf]

/-! ### Counting pixels -/

theorem coords_succ (w h : Nat) : coords w (h + 1) = coords w h ++ (List.range w).map fun x => (x, h) := by
  simp [coords, List.range_succ]

/-- Of the pixels, those whose column meets `p` and whose row meets `r` number the columns that do times the rows that
do: each row of the raster adds its columns or nothing. -/
theorem countP_coords (p r : Nat → Prop) [DecidablePred p] [DecidablePred r] (w h : Nat) :
    (coords w h).countP (fun c => p c.1 ∧ r c.2) = Nat.count p w * Nat.count r h := by
  induction h with
  | zero => simp [coords]
  | succ h ih =>
    have hrow : (List.range w).countP (fun x => decide (p x ∧ r h)) = Nat.count p w * if r h then 1 else 0 := by
      by_cases hr : r h <;> simp [hr, Nat.count]
    rw [coords_succ, List.countP_append, ih, List.countP_map, Nat.count_succ, Nat.mul_add, ← hrow]
    rfl

/-- A split at `k` leaves `k` of `n` places before it and `n - k` from it on. -/
theorem count_side (before : Bool) {k n : Nat} (h : k ≤ n) :
    Nat.count (fun x => before ↔ x < k) n = if before then k else n - k := by
  obtain ⟨m, rfl⟩ := Nat.exists_eq_add_of_le h
  rw [Nat.count_add]
  cases before with
  | true =>
    rw [Nat.count_of_forall (by simp), Nat.count_of_forall_not (by simp)]
    simp
  | false =>
    rw [Nat.count_of_forall_not (by simp), Nat.count_of_forall (by simp)]
    simp

/-- The pixels of a quadrant form a rectangle, of the width and the height of its side of each split (R252). -/
theorem length_filter_quadOf {w h xs ys : Nat} (hx : xs ≤ w) (hy : ys ≤ h) (q : Quadrant) :
    ((coords w h).filter fun c => quadOf xs ys c.1 c.2 = q).length =
      (if isLeft q then xs else w - xs) * (if isTop q then ys else h - ys) := by
  rw [← count_side _ hx, ← count_side _ hy, ← countP_coords, ← List.countP_eq_length_filter]
  simp only [quadOf_eq_iff]

/-! ### The step of a captured frame -/

/-- The step of a captured frame is its recompute. -/
theorem step_capture {s : State} {frame : List Half} {rest : List Event} (hb : s.bootPending = false)
    (hi : s.inputs = .capture frame :: rest) : step s = recompute frame { s with inputs := rest } := step_event hb hi

/-! ### The statements -/

/-- Settles O45: each quadrant is one side of either split, so its pixels form a rectangle whose area is their number;
splits in range leave both sides of it positive. -/
theorem quadrantsPartitionTheFrame : Obligations.QuadrantsPartitionTheFrame := by
  unfold Obligations.QuadrantsPartitionTheFrame
  refine ⟨fun xs ys x y => ?_, fun w h xs ys hxs hxw hys hyh => ?_⟩
  · simp only [quadOf_eq_iff]
    simp [isLeft, isTop]
  · intro size
    have hsize : ∀ q, size q = (if isLeft q then xs else w - xs) * (if isTop q then ys else h - ys) :=
      length_filter_quadOf (by omega) (by omega)
    refine ⟨hsize .a, hsize .b, hsize .c, hsize .d, fun q => ?_⟩
    rw [hsize]
    refine Nat.mul_pos ?_ ?_
    · split <;> omega
    · split <;> omega

/-- Settles O49: the commit replaces `max`, `center` and `bt` in the VRT and the broadcast adds an output; every other
field is that of the state the event was taken from. -/
theorem recomputeWritesOnlyItsResults : Obligations.RecomputeWritesOnlyItsResults := by
  unfold Obligations.RecomputeWritesOnlyItsResults
  intro s frame rest hb hi hlen
  have hnext := recompute_next (s := { s with inputs := rest }) hlen
  exact ⟨_, (step_capture hb hi).trans hnext, hnext,
    rfl, rfl, rfl, rfl, rfl, rfl, rfl, rfl, rfl, rfl, rfl, rfl, rfl, rfl⟩

end Sys2Proof.Machine

end

/-! Errors and idleness (60_exceptions.md R283, R286, R304): the byte that fails a frame's checksum, the `POLL` that meets
a streaming conflict, and the step with nothing on offer. -/
section

namespace Sys2Proof.Machine

/-- A fourth checksum byte that does not verify completes the frame and fails it; of the frame's fields only the checksum
field is written (R283). -/
theorem feed_checksumMismatch {q : Port} {b : Byte} (hs : q.ps = .readChecksum) (hc : 3 ≤ q.cnt.toNat)
    (hv : csumVerify q.acc (q.csField.set 3 b) = false) :
    feed q b = ({ q with csField := q.csField.set 3 b, ps := .seekStart, cnt := 0 }, .completeFail) := by
  rw [feed_complete hs hc, hv]
  rfl

/-- An answer of the predicate on offer is its value, and is used up by the sample. -/
theorem State.streamConflict_of_answer {s : State} {c : Bool} {rest : List Bool} (h : s.conflictAnswers = c :: rest) :
    s.streamConflict = (c, { s with conflictAnswers := rest }) := by
  rw [State.streamConflict, h]

/-- The predicate is sampled before the operand is looked at, so a conflict rejects every form of it (R220). -/
theorem exec_poll_of_conflict {s : State} (h : s.streamConflict.1 = true) (x : Operand) :
    exec (.poll x) s = .next (s.streamConflict.2.raise .streamingConflict) := by
  rw [exec, execPoll, if_pos h]

/-- The remaining case beside `step_boot` and `step_event`. -/
theorem step_idle {s : State} (hb : s.bootPending = false) (hi : s.inputs = []) : step s = .next s := by
  simp [step, hb, takeNext, hi]

/-! ### The statements -/

/-- Settles O10: the parser's result is `FrameComplete(fail)`, after which a `Feed` step makes a diagnostic and no
dispatch. -/
theorem checksumMismatchIsNotDispatched : Obligations.ChecksumMismatchIsNotDispatched := by
  unfold Obligations.ChecksumMismatchIsNotDispatched
  intro s p b rest hb hi hp hs hc hv
  have hfeed := feed_checksumMismatch hs (Nat.le_of_eq (congrArg BitVec.toNat hc).symm) hv
  rw [step_byte hb hi]
  exact feedPort_completeFail (s := { s with inputs := rest }) hp hfeed

/-- Settles O39: the sample takes the answer `true`, and the conflict raises one error. -/
theorem pollRejectedWhileStreaming : Obligations.PollRejectedWhileStreaming := by
  unfold Obligations.PollRejectedWhileStreaming
  intro s x rest h
  have hsample := State.streamConflict_of_answer h
  rw [exec_poll_of_conflict (congrArg Prod.fst hsample), hsample, raise_eq_outputting]

/-- Settles O59: with no boot load pending a step takes the next event, and there is none. -/
theorem idleWhenNothingIsOffered : Obligations.IdleWhenNothingIsOffered := by
  unfold Obligations.IdleWhenNothingIsOffered
  exact fun _ hb hi => step_idle hb hi

end Sys2Proof.Machine

end

/-! The decoder of byte strings and its encoder (30_encoding.md R92 to R112): when a frame is accepted, that the encoder
writes such frames, and that the operands read back as written. -/
section

namespace Sys2Proof

/-! ### Accepted frames -/

/-- The four fields of a frame that is accepted: its length is not rejected, the data fills the body it declares, and
the checksum verifies (R134, R136, R137). -/
structure AcceptedFrame (len cmd : Bytes4) (data : List Byte) (cs : Bytes4) : Prop where
  accepted : lengthRejected (lenValue len) = false
  span : data.length + 4 = bodyLimit (lenValue len)
  verified : csumVerify (byteSum (len.toList ++ cmd.toList ++ data)) cs = true

/-- `LEN CMD DATA CRC`, what follows the start marker of a frame (R92). -/
def frameFields (len cmd : Bytes4) (data : List Byte) (cs : Bytes4) : List Byte :=
  len.toList ++ cmd.toList ++ data ++ cs.toList

theorem takeField_eq_some {w rest : List Byte} {f : Bytes4} : takeField w = some (f, rest) ↔ w = f.toList ++ rest := by
  constructor
  · intro h
    unfold takeField at h
    split at h
    · cases h
      rfl
    · nomatch h
  · rintro rfl
    rfl

/-- The decoder reads a frame exactly where the fields of an accepted one stand (R92, R112). -/
theorem decodeFrame_eq_ok {w rest : List Byte} {i : Instr} :
    decodeFrame w = .ok (i, rest) ↔
      ∃ len cmd data cs, AcceptedFrame len cmd data cs ∧ w = frameFields len cmd data cs ++ rest ∧
        i = decodeBody cmd data := by
  constructor
  · intro h
    unfold decodeFrame at h
    split at h
    · nomatch h
    · rename_i len w1 hlen
      split at h
      · nomatch h
      · rename_i hacc
        have h4 := four_le_bodyLimit (Bool.eq_false_iff.2 hacc)
        dsimp only at h
        split at h
        · nomatch h
        · rename_i cmd w2 hcmd
          split at h
          · nomatch h
          · rename_i hspan
            split at h
            · nomatch h
            · rename_i cs rest' hcs
              split at h
              · rename_i hv
                obtain ⟨rfl, rfl⟩ := Prod.mk.inj (Except.ok.inj h)
                refine ⟨len, cmd, w2.take (bodyLimit (lenValue len) - 4), cs,
                  ⟨Bool.eq_false_iff.2 hacc, ?_, hv⟩, ?_, rfl⟩
                · rw [List.length_take]
                  omega
                · rw [takeField_eq_some.1 hlen, takeField_eq_some.1 hcmd, frameFields, List.append_assoc,
                    List.append_assoc, ← takeField_eq_some.1 hcs, List.append_assoc, List.take_append_drop]
              · nomatch h
  · rintro ⟨len, cmd, data, cs, ⟨hacc, hspan, hv⟩, rfl, rfl⟩
    have hlen : bodyLimit (lenValue len) - 4 = data.length := by omega
    have hf1 := takeField_eq_some (f := len) (rest := cmd.toList ++ (data ++ (cs.toList ++ rest))) |>.2 rfl
    have hf2 := takeField_eq_some (f := cmd) (rest := data ++ (cs.toList ++ rest)) |>.2 rfl
    have hf3 := takeField_eq_some (f := cs) (rest := rest) |>.2 rfl
    simp only [frameFields, List.append_assoc] at hv ⊢
    simp [decodeFrame, hf1, hf2, hf3, hacc, hlen, hv]

@[simp] theorem decode_start (w : List Byte) : decode (Config.start :: w) = decodeFrame w := by
  rw [decode, if_pos rfl]

/-- The decoder reads the first frame of a byte string, the bytes before its start marker discarded. -/
theorem decodeFrame_of_decode {w rest : List Byte} {i : Instr} (h : decode w = .ok (i, rest)) :
    ∃ skipped w', w = skipped ++ Config.start :: w' ∧ Config.start ∉ skipped ∧ decodeFrame w' = .ok (i, rest) := by
  induction w with
  | nil => nomatch h
  | cons b w ih =>
    by_cases hb : b = Config.start
    · subst hb
      exact ⟨[], w, rfl, by simp, by rwa [decode_start] at h⟩
    · rw [decode, if_neg hb] at h
      obtain ⟨skipped, w', rfl, hs, hf⟩ := ih h
      exact ⟨b :: skipped, w', rfl, by simp [hs, Ne.symm hb], hf⟩

/-! ### The frames the encoder writes -/

theorem csumVerify_bypass (acc : Word32) : csumVerify acc Config.bypass = true := rfl

/-- No four hex digits spell the bypass. -/
theorem hexField4_ne_bypass (v : Half) : hexField4 v ≠ Config.bypass := fun h => by
  have := hex4_hexField4 v
  rw [h] at this
  nomatch this

/-- A sum of at most 0xFFFF verifies against the field it is written in (R100). -/
theorem csumVerify_own {acc : Word32} (h : acc.toNat ≤ 0xFFFF) :
    csumVerify acc (hexField4 (acc.setWidth 16)) = true := by
  rw [csumVerify, csumVerifyWith, if_neg (hexField4_ne_bypass _), hex4_hexField4]
  simp only [Config.csumCmpBits, BitVec.toNat_setWidth, beq_iff_eq]
  omega

theorem lenValue_declared {n : Nat} (h : n ≤ 512) :
    (lenValue (hexField4 (BitVec.ofNat 16 (8 + n)))).toNat = 8 + n := by
  rw [lenValue_hexField4, BitVec.toNat_setWidth, BitVec.toNat_ofNat]
  omega

/-- A frame of at most 512 data bytes is accepted under every checksum that verifies. -/
theorem acceptedFrame_of_verified {cmd cs : Bytes4} {data : List Byte} (hlen : data.length ≤ 512)
    (hv : csumVerify (byteSum (frameBody cmd data)) cs = true) :
    AcceptedFrame (hexField4 (BitVec.ofNat 16 (8 + data.length))) cmd data cs := by
  have hdecl := lenValue_declared hlen
  refine ⟨?_, ?_, hv⟩
  · rw [lenValue_hexField4, lengthRejected_setWidth, decide_eq_false_iff_not, BitVec.toNat_ofNat]
    omega
  · rw [bodyLimit_eq]
    omega

theorem frameX_eq (cmd : Bytes4) (data : List Byte) :
    frameX cmd data =
      Config.start :: frameFields (hexField4 (BitVec.ofNat 16 (8 + data.length))) cmd data Config.bypass := rfl

theorem frame_eq (cmd : Bytes4) (data : List Byte) :
    frame cmd data =
      Config.start :: frameFields (hexField4 (BitVec.ofNat 16 (8 + data.length))) cmd data
        (hexField4 ((byteSum (frameBody cmd data)).setWidth 16)) := rfl

/-- A frame that carries its own checksum decodes to its code and data, whatever follows. -/
theorem decode_frame {cmd : Bytes4} {data : List Byte} (hlen : data.length ≤ 512)
    (hsum : (byteSum (frameBody cmd data)).toNat ≤ 0xFFFF) (rest : List Byte) :
    decode (frame cmd data ++ rest) = .ok (decodeBody cmd data, rest) := by
  rw [frame_eq, List.cons_append, decode_start]
  exact decodeFrame_eq_ok.2 ⟨_, _, _, _, acceptedFrame_of_verified hlen (csumVerify_own hsum), rfl, rfl⟩

/-! ### The sum of a frame of hex digits -/

/-- Bytes of at most `m` sum to at most `m` times their number. -/
theorem byteSum_toNat_le {w : List Byte} {m : Nat} (h : ∀ b ∈ w, b.toNat ≤ m) : (byteSum w).toNat ≤ m * w.length := by
  induction w with
  | nil => simp
  | cons b w ih =>
    obtain ⟨hb, hw⟩ := List.forall_mem_cons.1 h
    have := ih hw
    have hmod := Nat.mod_le ((b.setWidth 32).toNat + (byteSum w).toNat) (2 ^ 32)
    rw [byteSum_cons, BitVec.toNat_add, List.length_cons, Nat.mul_succ]
    have hb' : (b.setWidth 32).toNat = b.toNat := by bv_omega
    omega

/-- Every character of an operand is at most `'G'`. -/
theorem encodeOperand_le (x : Operand) : ∀ b ∈ encodeOperand x, b.toNat ≤ 71 := by
  have hdigit : ∀ n, n < 16 → (hexDigit n).toNat ≤ 71 := by decide
  cases x with
  | ok v =>
    have := v.isLt
    simp only [encodeOperand, hexText2, List.mem_cons, List.not_mem_nil, or_false, forall_eq_or_imp, forall_eq]
    exact ⟨hdigit _ (by omega), hdigit _ (by omega)⟩
  | missing => simp [encodeOperand]
  | malformed => simp [encodeOperand]

theorem encodeData_le (i : Instr) : ∀ b ∈ encodeData i, b.toNat ≤ 71 := by
  intro b hb
  cases i with
  | wreg a v =>
    rcases List.mem_append.1 hb with hb | hb
    · exact encodeOperand_le a b hb
    · exact encodeOperand_le v b hb
  | rreg a => exact encodeOperand_le a b hb
  | rrse l =>
    obtain ⟨x, -, hb⟩ := List.mem_flatMap.1 hb
    exact encodeOperand_le x b hb
  | poll f => exact encodeOperand_le f b hb
  | unknown c => nomatch hb

theorem dataBounded (i : Instr) : Laws.DataBounded.Statement i := by
  cases i with
  | wreg a v => exact Laws.DataBounded.wreg a v
  | rreg a => exact Laws.DataBounded.rreg a
  | rrse l => exact Laws.DataBounded.rrse l
  | poll f => exact Laws.DataBounded.poll f
  | unknown c => exact Laws.DataBounded.unknown c

/-- The sum of a command's frame fits 16 bits, so that its own checksum verifies. -/
theorem byteSum_encode_le {i : Instr} (h : i.wellFormed = true) :
    (byteSum (frameBody i.code (encodeData i))).toNat ≤ 0xFFFF := by
  obtain ⟨hlen, -⟩ := dataBounded i h
  have hdata := byteSum_toNat_le (encodeData_le i)
  have hhead := byteSum_toNat_le (w := hexText4 (BitVec.ofNat 16 (8 + (encodeData i).length)) ++ i.code.toList)
    (m := 255) fun b _ => Nat.le_of_lt_succ b.isLt
  rw [frameBody, byteSum_append, BitVec.toNat_add]
  simp only [List.length_append, hexText4_length, Bytes4.toList_length] at hhead
  omega

/-! ### Operands read back -/

theorem operandAt_append {x : Operand} (h : x.present = true) (w : List Byte) :
    operandAt (encodeOperand x ++ w) 0 = x := by
  cases x with
  | ok v => exact operandAt_zero_of_hex2 (hex2_hexText2 v) w
  | missing => nomatch h
  | malformed => rfl

theorem operandAt_encodeOperand (x : Operand) : operandAt (encodeOperand x) 0 = x := by
  cases x with
  | missing => rfl
  | ok v => simpa using operandAt_append (x := .ok v) rfl []
  | malformed => rfl

/-- A present operand takes two characters. -/
theorem encodeOperand_of_present {x : Operand} (h : x.present = true) : ∃ c0 c1, encodeOperand x = [c0, c1] := by
  cases x with
  | ok v => exact ⟨_, _, rfl⟩
  | missing => nomatch h
  | malformed => exact ⟨_, _, rfl⟩

theorem eq_missing_of_not_present {x : Operand} (h : x.present = false) : x = .missing := by
  cases x with
  | missing => rfl
  | ok v => nomatch h
  | malformed => nomatch h

theorem addrList_flatMap {l : List Operand} (h : ∀ x ∈ l, x.present = true) :
    addrList (l.flatMap encodeOperand) = l := by
  induction l with
  | nil => rfl
  | cons x l ih =>
    obtain ⟨hx, hl⟩ := List.forall_mem_cons.1 h
    obtain ⟨c0, c1, hc⟩ := encodeOperand_of_present hx
    have hread := operandAt_encodeOperand x
    rw [hc] at hread
    rw [List.flatMap_cons, hc, List.cons_append, List.cons_append, List.nil_append, addrList, hread, ih hl]

theorem knownCode_iff (c : Bytes4) : knownCode c = true ↔ c ∈ [codeWreg, codeRreg, codeRrse, codePoll] := by
  simp [knownCode, or_assoc]

theorem decodeBody_encodeData {i : Instr} (h : i.wellFormed = true) : decodeBody i.code (encodeData i) = i := by
  cases i with
  | wreg a v =>
    simp only [Instr.code, decodeBody_codeWreg, encodeData, Instr.wreg.injEq]
    cases ha : a.present with
    | true =>
      obtain ⟨c0, c1, hc⟩ := encodeOperand_of_present ha
      refine ⟨operandAt_append ha _, ?_⟩
      rw [hc]
      exact operandAt_encodeOperand v
    | false =>
      have hv : v.present = false := by simpa [Instr.wellFormed, ha] using h
      rw [eq_missing_of_not_present ha, eq_missing_of_not_present hv]
      exact ⟨rfl, rfl⟩
  | rreg a => simp only [Instr.code, decodeBody_codeRreg, encodeData, operandAt_encodeOperand]
  | rrse l =>
    simp only [Instr.wellFormed, Bool.and_eq_true, List.all_eq_true] at h
    simp only [Instr.code, decodeBody_codeRrse, encodeData, addrList_flatMap h.1]
  | poll f => simp only [Instr.code, decodeBody_codePoll, encodeData, operandAt_encodeOperand]
  | unknown c =>
    have hc : c ∉ [codeWreg, codeRreg, codeRrse, codePoll] := fun hmem => by
      simp [Instr.wellFormed, (knownCode_iff c).2 hmem] at h
    exact decodeBody_of_not_mem hc _

/-- Settles O2: a command's data fits the frame and its sum fits the checksum field, so the frame is accepted; and each
operand is read back from the characters it was written in. -/
theorem decodeOfEncodeIsIdentity : Obligations.DecodeOfEncodeIsIdentity := by
  unfold Obligations.DecodeOfEncodeIsIdentity
  intro i rest h
  obtain ⟨hlen, -⟩ := dataBounded i h
  rw [encode, decode_frame hlen (byteSum_encode_le h), decodeBody_encodeData h]

/-! ### Decoded bodies -/

/-- Where no operand fits at an index, none fits two places on. -/
theorem operandAt_missing_two {data : List Byte} (h : operandAt data 0 = .missing) : operandAt data 2 = .missing := by
  match data with
  | [] => rfl
  | [_] => rfl
  | c0 :: c1 :: w =>
    cases hx : hex2 c0 c1 <;> simp [operandAt, hx] at h

theorem addrList_present (data : List Byte) : ∀ x ∈ addrList data, x.present = true := by
  fun_induction addrList data with
  | case1 c0 c1 rest ih =>
    refine List.forall_mem_cons.2 ⟨?_, ih⟩
    cases hx : hex2 c0 c1 <;> simp [operandAt, hx, Operand.present]
  | case2 => simp

/-- One address for each pair of data bytes (R107). -/
theorem addrList_length (data : List Byte) : (addrList data).length = data.length / 2 := by
  fun_induction addrList data with
  | case1 c0 c1 rest ih =>
    rw [List.length_cons, ih, List.length_cons, List.length_cons]
    omega
  | case2 data h =>
    match data with
    | [] => rfl
    | [_] => simp
    | c0 :: c1 :: w => exact absurd rfl (h c0 c1 w)

theorem wellFormed_decodeBody (cmd : Bytes4) {data : List Byte} (h : data.length ≤ 512) :
    (decodeBody cmd data).wellFormed = true := by
  by_cases hc : cmd ∈ [codeWreg, codeRreg, codeRrse, codePoll]
  · simp only [List.mem_cons, List.not_mem_nil, or_false] at hc
    obtain rfl | rfl | rfl | rfl := hc
    · rw [decodeBody_codeWreg, Instr.wellFormed]
      cases hx : operandAt data 0 with
      | missing => rw [operandAt_missing_two hx]; rfl
      | ok v => rfl
      | malformed => rfl
    · rfl
    · have hlen := addrList_length data
      simp only [decodeBody_codeRrse, Instr.wellFormed, Bool.and_eq_true, List.all_eq_true, decide_eq_true_eq]
      exact ⟨addrList_present data, show _ ≤ 256 by omega⟩
    · rfl
  · rw [decodeBody_of_not_mem hc, Instr.wellFormed, Bool.not_eq_true', Bool.eq_false_iff]
    exact mt (knownCode_iff cmd).1 hc

/-- Settles O3: each branch of `decodeBody` makes an instruction of the code it tested, an operand missing only where
the data ends, and an address list of half the data bytes. -/
theorem decodedBodiesAreWellFormed : Obligations.DecodedBodiesAreWellFormed := by
  unfold Obligations.DecodedBodiesAreWellFormed
  exact fun cmd data => ⟨code_decodeBody cmd data, wellFormed_decodeBody cmd⟩

end Sys2Proof

end

/-! The hex fields and the checksum verifier (30_encoding.md R96, R97, 40_frame_parser.md R147), and frames written out
from the spec. -/
section

namespace Sys2Proof

/-! ### Hex digits -/

/-- `hexval` by the three ranges of R96. -/
theorem hexval_eq (c : Byte) :
    hexval c =
      if 0x30 ≤ c.toNat ∧ c.toNat ≤ 0x39 then some (c.toNat - 0x30)
      else if 0x41 ≤ c.toNat ∧ c.toNat ≤ 0x46 then some (c.toNat - 0x41 + 10)
      else if 0x61 ≤ c.toNat ∧ c.toNat ≤ 0x66 then some (c.toNat - 0x61 + 10)
      else none := by
  simp [hexval, hexvalWith, Config.hexLowerOk]

theorem hexval_lt {c : Byte} {d : Nat} (h : hexval c = some d) : d < 16 := by
  rw [hexval_eq] at h
  split at h
  · cases h; omega
  · split at h
    · cases h; omega
    · split at h
      · cases h; omega
      · nomatch h

theorem hexNumber_cons {c : Byte} {d : Nat} (h : hexval c = some d) (w : List Byte) (n : Nat) :
    hexNumber (c :: w) n = hexNumber w (16 * n + d) := by
  rw [hexNumber, h]

theorem hex2_of_digits {c0 c1 : Byte} {d0 d1 : Nat} (h0 : hexval c0 = some d0) (h1 : hexval c1 = some d1) :
    ∃ v, hex2 c0 c1 = some v ∧ v.toNat = 16 * d0 + d1 := by
  refine ⟨BitVec.ofNat 8 (16 * (16 * 0 + d0) + d1), ?_, ?_⟩
  · rw [hex2, hexNumber_cons h0, hexNumber_cons h1, hexNumber, Option.map_some]
  · have := hexval_lt h0
    have := hexval_lt h1
    rw [BitVec.toNat_ofNat]
    omega

theorem hex2_of_invalid {c0 c1 c : Byte} (hc : c ∈ [c0, c1]) (h : hexval c = none) : hex2 c0 c1 = none := by
  rw [hex2, hexNumber_eq_none hc h, Option.map_none]

theorem hex4_of_digits {f : Bytes4} {d0 d1 d2 d3 : Nat} (h0 : hexval f.b0 = some d0) (h1 : hexval f.b1 = some d1)
    (h2 : hexval f.b2 = some d2) (h3 : hexval f.b3 = some d3) :
    ∃ v, hex4 f = some v ∧ v.toNat = 4096 * d0 + 256 * d1 + 16 * d2 + d3 := by
  refine ⟨BitVec.ofNat 16 (16 * (16 * (16 * (16 * 0 + d0) + d1) + d2) + d3), ?_, ?_⟩
  · rw [hex4, Bytes4.toList, hexNumber_cons h0, hexNumber_cons h1, hexNumber_cons h2, hexNumber_cons h3, hexNumber,
      Option.map_some]
  · have := hexval_lt h0
    have := hexval_lt h1
    have := hexval_lt h2
    have := hexval_lt h3
    rw [BitVec.toNat_ofNat]
    omega

theorem hex4_of_invalid {f : Bytes4} {c : Byte} (hc : c ∈ f.toList) (h : hexval c = none) : hex4 f = none := by
  rw [hex4, hexNumber_eq_none hc h, Option.map_none]

/-! ### The verifier -/

/-- What `CsumVerify` accepts: the bypass, or the whole accumulator in four digits (R147). -/
theorem csumVerify_iff (acc : Word32) (cs : Bytes4) :
    csumVerify acc cs = true ↔ cs = Config.bypass ∨ ∃ v, hex4 cs = some v ∧ v.setWidth 32 = acc := by
  have hwide (v : Half) : v.toNat = acc.toNat % 2 ^ 32 ↔ v.setWidth 32 = acc := by
    constructor
    · intro h
      bv_omega
    · rintro rfl
      bv_omega
  unfold csumVerify csumVerifyWith
  split
  · simp [*]
  · rename_i hne
    cases hx : hex4 cs with
    | none => simp [hne]
    | some v => simp only [hne, false_or, Option.some.injEq, exists_eq_left', beq_iff_eq, ← hwide, Config.csumCmpBits]

/-! ### The statements -/

/-- Settles O12: the three ranges of `hexval` exclude each other; a number is made digit by digit, and each digit is
below 16, so two fit 8 bits and four fit 16. -/
theorem verifierAcceptsBypassOrSum : Obligations.VerifierAcceptsBypassOrSum := by
  unfold Obligations.VerifierAcceptsBypassOrSum
  refine ⟨csumVerify_iff, fun c => ?_, fun c0 c1 => ⟨fun d0 d1 => hex2_of_digits, ?_⟩,
    fun f => ⟨fun d0 d1 d2 d3 => hex4_of_digits, fun ⟨c, hc, h⟩ => hex4_of_invalid hc h⟩⟩
  · rw [hexval_eq]
    refine ⟨fun h h' => if_pos ⟨h, h'⟩, fun h h' => ?_, fun h h' => ?_, fun h => ?_⟩
    · rw [if_neg (by omega), if_pos ⟨h, h'⟩]
    · rw [if_neg (by omega), if_neg (by omega), if_pos ⟨h, h'⟩]
    · rw [if_neg (by omega), if_neg (by omega), if_neg (by omega)]
  · rintro (h | h)
    · exact hex2_of_invalid (by simp) h
    · exact hex2_of_invalid (by simp) h

/-- Settles O1: fixed byte strings, evaluated. -/
theorem specFramesDecodeToTheirCommands : Obligations.SpecFramesDecodeToTheirCommands := by
  unfold Obligations.SpecFramesDecodeToTheirCommands
  exact ⟨rfl, rfl, rfl, rfl, rfl, ⟨_, _, rfl⟩, ⟨_, rfl⟩, ⟨_, rfl⟩, ⟨_, rfl⟩⟩

end Sys2Proof

end

/-! What every `Feed` step keeps of a legal port (40_frame_parser.md R133 to R146): phase, buffers, and the accumulator
as the sum of the fields; and that neutral bytes bring the port back to `SeekStart`. -/
section

namespace Sys2Proof

theorem Bytes4.getElem?_set (f : Bytes4) {i j : Nat} (b : Byte) (h : j < 4) :
    (f.set i b).toList[j]? = if i = j then some b else f.toList[j]? := by
  match i, j, h with
  | 0, 0, _ | 0, 1, _ | 0, 2, _ | 0, 3, _ => rfl
  | 1, 0, _ | 1, 1, _ | 1, 2, _ | 1, 3, _ => rfl
  | 2, 0, _ | 2, 1, _ | 2, 2, _ | 2, 3, _ => rfl
  | 3, 0, _ | 3, 1, _ | 3, 2, _ | 3, 3, _ => rfl
  | i + 4, j, h =>
    rw [if_neg (by omega)]
    rfl

theorem Bytes4.mem_set_three (f : Bytes4) (b : Byte) : b ∈ (f.set 3 b).toList := by
  simp [Bytes4.set, Bytes4.toList]

/-- Where a field byte is still zero, storing a byte adds it to the field's sum. -/
theorem byteSum_set {f : Bytes4} {i : Nat} (hi : i < 4) (h0 : f.toList[i]? = some 0) (b : Byte) :
    byteSum (f.set i b).toList = byteSum f.toList + b.setWidth 32 := by
  match i, hi with
  | 0, _ | 1, _ | 2, _ | 3, _ =>
    simp only [Bytes4.toList, List.getElem?_cons_zero, List.getElem?_cons_succ, Option.some.injEq] at h0
    simp only [Bytes4.set, Bytes4.toList, h0, byteSum_cons, byteSum_nil]
    bv_omega

theorem bodyLimit_le (len : Word32) : bodyLimit len ≤ 516 := by
  rw [bodyLimit_eq]
  omega

end Sys2Proof

namespace Sys2Proof.Machine

/-! ### One body byte -/

/-- A body byte joins the command code, or the data bytes at their end (R135). -/
theorem storeBody_cases {q : Port} (hc : q.cnt.toNat < 516) (hd : q.dataLen.toNat = q.cnt.toNat - 4) (b : Byte) :
    (q.cnt.toNat < 4 ∧ (storeBody q b).cmd = q.cmd.set q.cnt.toNat b ∧ (storeBody q b).data = q.data ∧
      (storeBody q b).dataLen = q.dataLen) ∨
    (4 ≤ q.cnt.toNat ∧ (storeBody q b).cmd = q.cmd ∧ (storeBody q b).data = q.data.write q.dataLen.toNat b ∧
      (storeBody q b).dataLen.toNat = q.dataLen.toNat + 1) := by
  rw [storeBody_cmd, storeBody_data, storeBody_dataLen]
  by_cases h : q.cnt.toNat < 4
  · exact .inl ⟨h, if_pos h, if_pos h, if_pos h⟩
  · rw [if_neg h, if_neg h, if_neg h, hd]
    exact .inr ⟨by omega, rfl, rfl, by bv_omega⟩

/-- What a legal port in `ReadBody` is, with the numbers written out. -/
theorem Port.Ok.of_readBody {q : Port} (hq : q.Ok) (hs : q.ps = .readBody) :
    q.cnt.toNat < 516 ∧ q.cnt.toNat < bodyLimit q.declaredLength ∧ q.dataLen.toNat = q.cnt.toNat - 4 ∧
      lengthRejected q.declaredLength = false := by
  obtain ⟨-, hphase, -⟩ := hq
  simp only [Port.phaseOk, hs] at hphase
  obtain ⟨hrej, hcnt, hlen⟩ := hphase
  have := bodyLimit_le q.declaredLength
  exact ⟨by omega, hcnt, hlen, hrej⟩

theorem Port.Ok.cnt_le_of_readLength {q : Port} (hq : q.Ok) (hs : q.ps = .readLength) : q.cnt.toNat ≤ 3 := by
  obtain ⟨⟨-, hcnt⟩, -⟩ := hq
  simpa only [hs] using hcnt

theorem Port.Ok.cnt_le_of_readChecksum {q : Port} (hq : q.Ok) (hs : q.ps = .readChecksum) : q.cnt.toNat ≤ 3 := by
  obtain ⟨⟨-, hcnt⟩, -⟩ := hq
  simpa only [hs] using hcnt

theorem Port.Ok.dataLen_of_readLength {q : Port} (hq : q.Ok) (hs : q.ps = .readLength) : q.dataLen = 0 := by
  simpa only [Port.phaseOk, hs] using hq.phase

/-! ### Phase and buffers -/

/-- From a legal port, what holds of the frame in hand holds after the next byte. -/
theorem feed_phaseOk {q : Port} (hq : q.Ok) (b : Byte) : (feed q b).1.phaseOk := by
  have h := feed_cases q b
  generalize feed q b = r at h ⊢
  cases h with
  | skip => exact hq.phase
  | start => rfl
  | length hs => simpa only [Port.phaseOk, hs] using hq.dataLen_of_readLength hs
  | rejected => trivial
  | accepted hs _ hr =>
    have := four_le_bodyLimit hr
    exact ⟨hr, by simp; omega, by simp [hq.dataLen_of_readLength hs]⟩
  | body hs hn =>
    obtain ⟨hc, hlim, hd, hrej⟩ := hq.of_readBody hs
    simp only [Port.phaseOk, storeBody_ps, hs, storeBody_declaredLength, storeBody_cnt]
    refine ⟨hrej, by bv_omega, ?_⟩
    rcases storeBody_cases hc hd b with ⟨h4, -, -, hlen⟩ | ⟨h4, -, -, hlen⟩ <;> rw [hlen] <;> bv_omega
  | bodyEnd => trivial
  | checksum hs => simp only [Port.phaseOk, hs]
  | complete => trivial

/-- A body byte is written where the data bytes end, so the buffer stays zero above them. -/
theorem storeBody_buffersOk {q : Port} (hq : q.Ok) (hs : q.ps = .readBody) (b : Byte) :
    (storeBody q b).buffersOk := by
  obtain ⟨hc, -, hd, -⟩ := hq.of_readBody hs
  obtain ⟨hwf, hzero, hack⟩ := hq.buffers
  rw [Port.buffersOk, storeBody_ack, storeBody_ackLen]
  rcases storeBody_cases hc hd b with ⟨-, -, hdata, hlen⟩ | ⟨-, -, hdata, hlen⟩ <;> rw [hdata, hlen]
  · exact ⟨hwf, hzero, hack⟩
  · refine ⟨Memory.wf_write hwf _ _, fun i hi => ?_, hack⟩
    rw [Memory.read_write hwf, if_neg (by omega)]
    exact hzero i (by omega)

theorem feed_buffersOk {q : Port} (hq : q.Ok) (b : Byte) : (feed q b).1.buffersOk := by
  obtain ⟨-, -, hack⟩ := hq.buffers
  have h := feed_cases q b
  generalize feed q b = r at h ⊢
  cases h with
  | start => exact ⟨rfl, fun _ _ => rfl, hack⟩
  | body hs => exact storeBody_buffersOk hq hs b
  | bodyEnd hs => exact storeBody_buffersOk hq hs b
  | skip | length | rejected | accepted | checksum | complete => exact hq.buffers

/-- A `Feed` step keeps a port legal. -/
theorem feed_ok {q : Port} (hq : q.Ok) (b : Byte) : (feed q b).1.Ok :=
  ⟨feed_countersOk hq b, feed_phaseOk hq b, feed_buffersOk hq b⟩

/-! ### The accumulator -/

theorem feed_unreachedZero {q : Port} (hq : q.Ok) (hz : q.unreachedZero) (b : Byte) : (feed q b).1.unreachedZero := by
  have hzero : ∀ i, i < 4 → Bytes4.zero.toList[i]? = some 0 := by decide
  have h := feed_cases q b
  generalize feed q b = r at h ⊢
  cases h with
  | skip => exact hz
  | start => exact ⟨fun i _ h4 => hzero i h4, rfl, rfl⟩
  | length hs hc =>
    simp only [Port.unreachedZero, hs] at hz ⊢
    obtain ⟨hlen, hrest⟩ := hz
    refine ⟨fun i hi h4 => ?_, hrest⟩
    have hcnt : (q.cnt + 1).toNat = q.cnt.toNat + 1 := by bv_omega
    rw [Bytes4.getElem?_set _ _ h4, if_neg (by omega)]
    exact hlen i (by omega) h4
  | rejected => trivial
  | accepted hs =>
    simp only [Port.unreachedZero, hs] at hz ⊢
    obtain ⟨-, hcmd, -⟩ := hz
    rw [hcmd]
    exact fun i _ h4 => hzero i h4
  | body hs =>
    obtain ⟨hc, -, hd, -⟩ := hq.of_readBody hs
    simp only [Port.unreachedZero, storeBody_ps, hs, storeBody_cnt] at hz ⊢
    intro i hi h4
    have hcnt : (q.cnt + 1).toNat = q.cnt.toNat + 1 := by bv_omega
    rcases storeBody_cases hc hd b with ⟨-, hcmd, -⟩ | ⟨hge, -⟩
    · rw [hcmd, Bytes4.getElem?_set _ _ h4, if_neg (by omega)]
      exact hz i (by omega) h4
    · omega
  | bodyEnd => trivial
  | checksum hs => simp only [Port.unreachedZero, hs]
  | complete => trivial

/-- A length byte stored where the field is zero is summed. -/
theorem sumOk_lengthByte {q : Port} (hsum : q.sumOk) {i : Nat} (hi : i < 4) (h0 : q.lenField.toList[i]? = some 0)
    (b : Byte) :
    addByte q.acc b = byteSum ((q.lenField.set i b).toList ++ q.cmd.toList ++ q.dataBytes) := by
  rw [addByte, hsum]
  simp only [byteSum_append, byteSum_set hi h0]
  bv_omega

theorem storeBody_sumOk {q : Port} (hq : q.Ok) (hs : q.ps = .readBody) (hz : q.unreachedZero) (hsum : q.sumOk)
    (b : Byte) : (storeBody q b).sumOk := by
  obtain ⟨hc, -, hd, -⟩ := hq.of_readBody hs
  obtain ⟨hwf, -⟩ := hq.buffers
  simp only [Port.unreachedZero, hs] at hz
  rw [Port.sumOk, storeBody_acc, storeBody_lenField, addByte, hsum]
  rcases storeBody_cases hc hd b with ⟨h4, hcmd, hdata, hlen⟩ | ⟨h4, hcmd, hdata, hlen⟩
  · have hbytes : (storeBody q b).dataBytes = q.dataBytes := by rw [Port.dataBytes, hdata, hlen, Port.dataBytes]
    simp only [hcmd, hbytes, byteSum_append, byteSum_set h4 (hz _ (Nat.le_refl _) h4)]
    bv_omega
  · have hroom : q.dataLen.toNat < Config.dataCap := by
      simp only [Config.dataCap]
      omega
    simp only [hcmd, dataBytes_snoc hwf hroom hdata hlen, byteSum_append, byteSum_cons, byteSum_nil]
    bv_omega

theorem feed_sumOk {q : Port} (hq : q.Ok) (hz : q.unreachedZero) (hsum : q.sumOk) (b : Byte) :
    (feed q b).1.sumOk := by
  have h := feed_cases q b
  generalize feed q b = r at h ⊢
  cases h with
  | start => rfl
  | length hs hc =>
    simp only [Port.unreachedZero, hs] at hz
    exact sumOk_lengthByte hsum (by omega) (hz.1 _ (Nat.le_refl _) (by omega)) b
  | rejected hs | accepted hs =>
    have hle := hq.cnt_le_of_readLength hs
    simp only [Port.unreachedZero, hs] at hz
    exact sumOk_lengthByte hsum (by omega) (hz.1 3 hle (by omega)) b
  | body hs => exact storeBody_sumOk hq hs hz hsum b
  | bodyEnd hs => exact storeBody_sumOk hq hs hz hsum b
  | skip | checksum | complete => exact hsum

/-- Settles O17: each of legality, the zeros ahead and the sum is kept by every case of a `Feed` step; a byte is summed
in the same step that stores it over a zero. -/
theorem feedKeepsAccumulatorTheSum : Obligations.FeedKeepsAccumulatorTheSum := by
  unfold Obligations.FeedKeepsAccumulatorTheSum
  exact fun q b hq hz hsum => ⟨feed_ok hq b, feed_unreachedZero hq hz b, feed_sumOk hq hz hsum b⟩

/-! ### Neutral bytes -/

/-- Neither the start marker, nor a hex digit, nor the bypass character (70_reset_and_hazards.md section 3). -/
def NeutralByte (b : Byte) : Prop := b ≠ 0x23 ∧ hexval b = none ∧ b ≠ 0x58

/-- How many neutral bytes bring a port to `SeekStart`: those left of its field or frame, a length spelt with a neutral
byte being rejected. -/
def Port.neutralLeft (q : Port) : Nat :=
  match q.ps with
  | .seekStart => 0
  | .readLength => 4 - q.cnt.toNat
  | .readBody => bodyLimit q.declaredLength - q.cnt.toNat + 4
  | .readChecksum => 4 - q.cnt.toNat

theorem Port.neutralLeft_le (q : Port) : q.neutralLeft ≤ 520 := by
  have := bodyLimit_le q.declaredLength
  unfold Port.neutralLeft
  split <;> omega

theorem Port.Ok.seekStart_of_neutralLeft {q : Port} (hq : q.Ok) (h : q.neutralLeft = 0) : q.ps = .seekStart := by
  cases hs : q.ps with
  | seekStart => rfl
  | readLength =>
    have := hq.cnt_le_of_readLength hs
    simp only [Port.neutralLeft, hs] at h
    omega
  | readBody =>
    simp only [Port.neutralLeft, hs] at h
    omega
  | readChecksum =>
    have := hq.cnt_le_of_readChecksum hs
    simp only [Port.neutralLeft, hs] at h
    omega

/-- A checksum field that ends in a neutral byte does not verify. -/
theorem csumVerify_of_neutral {b : Byte} (hb : NeutralByte b) (acc : Word32) (f : Bytes4) :
    csumVerify acc (f.set 3 b) = false := by
  obtain ⟨-, hhex, hx⟩ := hb
  rw [Bool.eq_false_iff, Ne, csumVerify_iff, hex4_of_invalid (f.mem_set_three b) hhex]
  rintro (h | ⟨v, hv, -⟩)
  · exact hx (congrArg Bytes4.b3 h)
  · nomatch hv

theorem lengthRejected_of_neutral {b : Byte} (hb : NeutralByte b) (f : Bytes4) :
    lengthRejected (lenValue (f.set 3 b)) = true := by
  obtain ⟨-, hhex, -⟩ := hb
  rw [lenValue_of_invalid (f.mem_set_three b) hhex]
  rfl

theorem feed_neutral_result {b : Byte} (hb : NeutralByte b) (q : Port) : (feed q b).2 ≠ .completeOk := by
  have h := feed_cases q b
  generalize feed q b = r at h ⊢
  cases h with
  | complete =>
    rw [csumVerify_of_neutral hb]
    nofun
  | _ => nofun

/-- Each neutral byte brings a legal port one byte nearer to `SeekStart`, where it then stays. -/
theorem feed_neutralLeft {q : Port} (hq : q.Ok) {b : Byte} (hb : NeutralByte b) :
    (feed q b).1.neutralLeft ≤ q.neutralLeft - 1 := by
  have h := feed_cases q b
  generalize feed q b = r at h ⊢
  cases h with
  | skip hs => simp [Port.neutralLeft, hs]
  | start hs hstart => exact absurd hstart hb.1
  | length hs hc =>
    simp only [Port.neutralLeft, hs]
    bv_omega
  | rejected => exact Nat.zero_le _
  | accepted hs hc hr =>
    rw [lengthRejected_of_neutral hb] at hr
    nomatch hr
  | body hs hn =>
    obtain ⟨hc, hlim, -⟩ := hq.of_readBody hs
    simp only [Port.neutralLeft, storeBody_ps, hs, storeBody_cnt, storeBody_declaredLength]
    bv_omega
  | bodyEnd hs hn =>
    obtain ⟨hc, hlim, -⟩ := hq.of_readBody hs
    simp only [Port.neutralLeft, hs]
    bv_omega
  | checksum hs hc =>
    simp only [Port.neutralLeft, hs]
    bv_omega
  | complete => exact Nat.zero_le _

theorem feedAll_neutral {w : List Byte} (hw : ∀ b ∈ w, NeutralByte b) :
    ∀ {q : Port}, q.Ok → (feedAll q w).1.Ok ∧ (feedAll q w).1.neutralLeft ≤ q.neutralLeft - w.length ∧
      .completeOk ∉ (feedAll q w).2 := by
  induction w with
  | nil => exact fun hq => ⟨hq, Nat.le_refl _, by simp⟩
  | cons b w ih =>
    intro q hq
    obtain ⟨hb, hw⟩ := List.forall_mem_cons.1 hw
    have hstep := feed_neutralLeft hq hb
    obtain ⟨hok, hleft, hnot⟩ := ih hw (feed_ok hq b)
    rw [feedAll_cons]
    refine ⟨hok, ?_, ?_⟩
    · dsimp only [List.length_cons]
      omega
    · rw [List.mem_cons, not_or]
      exact ⟨(feed_neutral_result hb q).symm, hnot⟩

/-- Settles O21: a legal port is at most 520 neutral bytes away from `SeekStart`, and a checksum that ends in one of
them never verifies. -/
theorem neutralBytesResynchronise : Obligations.NeutralBytesResynchronise := by
  unfold Obligations.NeutralBytesResynchronise
  intro q w hq hlen hw
  obtain ⟨hok, hleft, hnot⟩ := feedAll_neutral hw hq
  have := q.neutralLeft_le
  exact ⟨hok.seekStart_of_neutralLeft (by omega), hnot⟩

end Sys2Proof.Machine

end

/-! A whole frame through the serial parser (40_frame_parser.md R132 to R137): each field as one equation of `feedAll`,
and the port that an accepted frame leaves. -/
section

namespace Sys2Proof.Machine

/-! ### Before the frame, and its length -/

/-- In `SeekStart` a byte other than the start marker is skipped. -/
theorem feed_skip {q : Port} {b : Byte} (hs : q.ps = .seekStart) (hb : b ≠ Config.start) : feed q b = (q, .cont) := by
  rw [feed, hs]
  exact if_neg hb

theorem feedAll_skip {q : Port} (hs : q.ps = .seekStart) {w : List Byte} (hw : Config.start ∉ w) :
    feedAll q w = (q, List.replicate w.length .cont) := by
  induction w with
  | nil => rfl
  | cons b w ih =>
    obtain ⟨hb, hw⟩ := not_or.1 (mt List.mem_cons.2 hw)
    rw [feedAll_cons, feed_skip hs (Ne.symm hb), ih hw, List.length_cons, List.replicate_succ]

/-- The start marker and an accepted length lead to the body. -/
theorem feedAll_header {q : Port} (hs : q.ps = .seekStart) {len : Bytes4}
    (hacc : lengthRejected (lenValue len) = false) :
    feedAll q (Config.start :: len.toList) =
      ({ q.reInit with ps := .readBody, lenField := len, declaredLength := lenValue len, acc := byteSum len.toList },
        List.replicate 5 .cont) := by
  have hsplit : Config.start :: len.toList = 0x23 :: ([len.b0, len.b1, len.b2] ++ [len.b3]) := rfl
  have hthree : feedAll { q.reInit with ps := .readLength } [len.b0, len.b1, len.b2] =
      ({ q.reInit with ps := .readLength, lenField := ⟨len.b0, len.b1, len.b2, 0⟩, cnt := 3,
                       acc := byteSum [len.b0, len.b1, len.b2] }, List.replicate 3 .cont) :=
    feedAll_length rfl (Nat.le_refl 3)
  rw [hsplit, feedAll_cons, feed_start hs, feedAll_append, hthree, feedAll_cons, feed_lengthAccepted ?_ ?_ ?_]
  · rfl
  · rfl
  · exact Nat.le_refl 3
  · exact hacc

/-! ### The body -/

theorem feed_body {q : Port} {b : Byte} (hs : q.ps = .readBody) (hn : (q.cnt + 1).toNat ≠ bodyLimit q.declaredLength) :
    feed q b = (storeBody q b, .cont) := by
  rw [feed_readBody hs, if_neg hn, if_neg hn, ← storeBody_cnt q b, ← hs, ← storeBody_ps q b]

theorem feed_bodyEnd {q : Port} {b : Byte} (hs : q.ps = .readBody)
    (hn : (q.cnt + 1).toNat = bodyLimit q.declaredLength) :
    feed q b = ({ storeBody q b with ps := .readChecksum, cnt := 0 }, .cont) := by
  rw [feed_readBody hs, if_pos hn, if_pos hn]

/-- The bytes up to the body limit are stored one after the other, and the last leads to the checksum. -/
theorem feedAll_body {w : List Byte} (hw : w ≠ []) : ∀ {q : Port}, q.ps = .readBody →
    q.cnt.toNat + w.length = bodyLimit q.declaredLength →
    feedAll q w =
      ({ w.foldl storeBody q with ps := .readChecksum, cnt := 0 }, List.replicate w.length .cont) := by
  induction w with
  | nil => exact absurd rfl hw
  | cons b w ih =>
    intro q hs hc
    have hlim := bodyLimit_le q.declaredLength
    have hcnt : (q.cnt + 1).toNat = q.cnt.toNat + 1 := by bv_omega
    rw [List.length_cons] at hc
    by_cases hlast : w = []
    · subst hlast
      rw [feedAll_cons, feed_bodyEnd hs (hcnt.trans hc)]
      rfl
    · have := List.length_pos_of_ne_nil hlast
      rw [feedAll_cons, feed_body hs (by omega),
        ih hlast (by rw [storeBody_ps, hs]) (by rw [storeBody_cnt, storeBody_declaredLength]; omega)]
      rfl

theorem foldl_storeBody_declaredLength (q : Port) (w : List Byte) :
    (w.foldl storeBody q).declaredLength = q.declaredLength := by
  induction w generalizing q with
  | nil => rfl
  | cons b w ih => rw [List.foldl_cons, ih, storeBody_declaredLength]

theorem foldl_storeBody_acc (q : Port) (w : List Byte) : (w.foldl storeBody q).acc = q.acc + byteSum w := by
  induction w generalizing q with
  | nil => simp
  | cons b w ih => rw [List.foldl_cons, ih, storeBody_acc, addByte, byteSum_cons, BitVec.add_assoc]

/-- The first four body bytes are the command code. -/
theorem foldl_storeBody_cmd {q : Port} (hc : q.cnt = 0) (cmd : Bytes4) :
    cmd.toList.foldl storeBody q = { q with cmd := cmd, cnt := 4, acc := q.acc + byteSum cmd.toList } := by
  simp [Bytes4.toList, storeBody, Bytes4.set, hc, addByte, byteSum_cons, BitVec.add_assoc]

/-- The further body bytes are appended to the data, up to 512 of them. -/
theorem foldl_storeBody_data {w : List Byte} : ∀ {q : Port}, q.data.wf = true → 4 ≤ q.cnt.toNat →
    q.cnt.toNat + w.length ≤ 516 → q.dataLen.toNat = q.cnt.toNat - 4 →
    (w.foldl storeBody q).cmd = q.cmd ∧ (w.foldl storeBody q).dataBytes = q.dataBytes ++ w := by
  induction w with
  | nil => intro q _ _ _ _; simp
  | cons b w ih =>
    intro q hwf h4 hlen hd
    rw [List.length_cons] at hlen
    rcases storeBody_cases (by omega) hd b with ⟨hlt, -⟩ | ⟨-, hcmd, hdata, hn⟩
    · omega
    · have hcnt : (storeBody q b).cnt.toNat = q.cnt.toNat + 1 := by rw [storeBody_cnt]; bv_omega
      have hroom : q.dataLen.toNat < Config.dataCap := by
        simp only [Config.dataCap]
        omega
      obtain ⟨hcmd', hbytes⟩ := ih (q := storeBody q b) (by rw [hdata]; exact Memory.wf_write hwf _ _) (by omega)
        (by omega) (by omega)
      rw [List.foldl_cons, hcmd', hbytes, dataBytes_snoc hwf hroom hdata hn]
      exact ⟨hcmd, by simp⟩

/-! ### The checksum, and the whole frame -/

theorem feedAll_checksum {q : Port} (hs : q.ps = .readChecksum) (hc : q.cnt = 0) (cs : Bytes4) :
    feedAll q cs.toList =
      ({ q with csField := cs, cnt := 0, ps := .seekStart },
        List.replicate 3 .cont ++ [verdict (csumVerify q.acc cs)]) := by
  simp [Bytes4.toList, feedAll_cons, feed, hs, feedReadChecksum, hc, Bytes4.set, List.replicate]

/-- An accepted frame gives `Continue` for every byte but the last and `FrameComplete(ok)` for the last, and leaves its
code, data, length and sum in the port. -/
theorem feedAll_acceptedFrame {q : Port} (hs : q.ps = .seekStart) {len cmd cs : Bytes4} {data : List Byte}
    (h : AcceptedFrame len cmd data cs) :
    ∃ r, feedAll q (Config.start :: frameFields len cmd data cs) =
        (r, List.replicate (12 + data.length) .cont ++ [.completeOk]) ∧
      r.ps = .seekStart ∧ r.cnt = 0 ∧ r.cmd = cmd ∧ r.dataBytes = data ∧ r.declaredLength = lenValue len ∧
      r.acc = byteSum (len.toList ++ cmd.toList ++ data) := by
  have hlim := bodyLimit_le (lenValue len)
  obtain ⟨hacc, hspan, hv⟩ := h
  set q1 : Port :=
    { q.reInit with ps := .readBody, lenField := len, declaredLength := lenValue len, acc := byteSum len.toList }
  set q2 : Port := (cmd.toList ++ data).foldl storeBody q1 with hq2
  have hsum : q2.acc = byteSum (len.toList ++ cmd.toList ++ data) := by
    rw [hq2, foldl_storeBody_acc, List.append_assoc, byteSum_append len.toList]
  have hbody : feedAll q1 (cmd.toList ++ data) =
      ({ q2 with ps := .readChecksum, cnt := 0 }, List.replicate (4 + data.length) .cont) := by
    have hlen : (cmd.toList ++ data).length = 4 + data.length := by simp
    rw [feedAll_body (by simp [Bytes4.toList]) rfl (by rw [hlen]; simp [q1]; omega), hlen]
  have hstored : q2.cmd = cmd ∧ q2.dataBytes = data := by
    rw [hq2, List.foldl_append, foldl_storeBody_cmd rfl]
    exact foldl_storeBody_data rfl (Nat.le_refl 4) (by simp; omega) rfl
  have hsplit : Config.start :: frameFields len cmd data cs =
      (Config.start :: len.toList) ++ ((cmd.toList ++ data) ++ cs.toList) := by
    simp [frameFields]
  refine ⟨{ q2 with csField := cs, cnt := 0, ps := .seekStart }, ?_, rfl, rfl, hstored.1, hstored.2,
    foldl_storeBody_declaredLength q1 _, hsum⟩
  rw [hsplit, feedAll_append, feedAll_header hs hacc, feedAll_append, hbody, feedAll_checksum rfl rfl]
  dsimp only
  rw [hsum, hv, ← List.append_assoc, ← List.append_assoc, List.replicate_append_replicate,
    List.replicate_append_replicate]
  congr 3
  omega

/-! ### The statements -/

/-- Settles O5: the two branches of `SeekStart`. -/
theorem seekStartWaitsForTheMarker : Obligations.SeekStartWaitsForTheMarker := by
  unfold Obligations.SeekStartWaitsForTheMarker
  refine fun q b hs => ⟨fun hb => feed_skip hs hb, ?_⟩
  rintro rfl
  exact feed_start hs

/-- Settles O15: both ways to write the checksum make an accepted frame of at most 512 data bytes, whose declared length
is read back from its four digits. -/
theorem framesRoundTripThroughTheParser : Obligations.FramesRoundTripThroughTheParser := by
  unfold Obligations.FramesRoundTripThroughTheParser
  intro q cmd data w hs hlen hw
  obtain ⟨cs, hv, rfl⟩ : ∃ cs, csumVerify (byteSum (frameBody cmd data)) cs = true ∧
      w = Config.start :: frameFields (hexField4 (BitVec.ofNat 16 (8 + data.length))) cmd data cs := by
    rcases hw with hw | ⟨hw, hsum⟩
    · exact ⟨_, csumVerify_bypass _, hw.trans (frameX_eq cmd data)⟩
    · exact ⟨_, csumVerify_own hsum, hw.trans (frame_eq cmd data)⟩
  obtain ⟨r, hfeed, hps, hcnt, hcmd, hbytes, hdecl, hacc⟩ :=
    feedAll_acceptedFrame hs (acceptedFrame_of_verified hlen hv)
  rw [hfeed]
  refine ⟨?_, hps, hcnt, hcmd, hbytes, ?_, ?_, hacc⟩
  · simp [frameFields]
    omega
  · rw [← dataBytes_length, hbytes]
  · rw [hdecl, lenValue_declared hlen]

/-- Settles O16: the decoder skips to a start marker and reads an accepted frame, and the parser does the same byte by
byte. -/
theorem serialParserAgreesWithDecoder : Obligations.SerialParserAgreesWithDecoder := by
  unfold Obligations.SerialParserAgreesWithDecoder
  intro q w rest i hs hdec
  obtain ⟨skipped, w', rfl, hskip, hframe⟩ := decodeFrame_of_decode hdec
  obtain ⟨len, cmd, data, cs, hacc, rfl, rfl⟩ := decodeFrame_eq_ok.1 hframe
  obtain ⟨r, hfeed, -, -, hcmd, hbytes, -⟩ := feedAll_acceptedFrame hs hacc
  have hused : feedAll q (skipped ++ Config.start :: frameFields len cmd data cs) =
      (r, List.replicate (skipped.length + (12 + data.length)) .cont ++ [.completeOk]) := by
    rw [feedAll_append, feedAll_skip hs hskip, hfeed]
    dsimp only
    rw [List.replicate_add skipped.length, List.append_assoc]
  refine ⟨skipped ++ Config.start :: frameFields len cmd data cs, by simp, ?_, ?_⟩
  · rw [hused]
    simp [frameFields]
    omega
  · rw [hused, hcmd, hbytes]

end Sys2Proof.Machine

end

/-! Coordinates (41_register_broker.md R178 to R184): a clamp as a number, the sides of a split, and `WREG` of the
address of a register that accepts writes. -/
section

namespace Sys2Proof.Machine

/-! ### Clamps and the sides of a split -/

/-- The clamp of a byte to bounds that are bytes, as a number. -/
theorem clampByte_toNat (v : Byte) {lo hi : Nat} (hlo : lo ≤ 255) (hhi : hi ≤ 255) :
    (clampByte v lo hi).toNat = if v.toNat < lo then lo else if hi < v.toNat then hi else v.toNat := by
  have := v.isLt
  have hlt : clamp v.toNat lo hi < 2 ^ 8 := by
    unfold clamp
    split
    · omega
    · split <;> omega
  rw [clampByte, BitVec.toNat_ofNat]
  exact Nat.mod_eq_of_lt hlt

/-- The least coordinate on one side of a split at `k`: `xlo` and `ylo` of R180. -/
def sideLo (before : Bool) (k : Nat) : Nat := if before then 0 else k

/-- The greatest coordinate on one side of a split at `k` of `n`: `xhi` and `yhi` of R180. -/
def sideHi (before : Bool) (k n : Nat) : Nat := if before then k - 1 else n - 1

theorem xlo_eq_side (t : Vrt) (q : Quadrant) : xlo t q = sideLo (isLeft q) t.xsplit.toNat := rfl
theorem xhi_eq_side (g : Params) (t : Vrt) (q : Quadrant) :
    xhi g t q = sideHi (isLeft q) t.xsplit.toNat g.frameW := rfl
theorem ylo_eq_side (t : Vrt) (q : Quadrant) : ylo t q = sideLo (isTop q) t.ysplit.toNat := rfl
theorem yhi_eq_side (g : Params) (t : Vrt) (q : Quadrant) :
    yhi g t q = sideHi (isTop q) t.ysplit.toNat g.frameH := rfl

theorem sideLo_le (before : Bool) {k : Nat} (hk : k ≤ 255) : sideLo before k ≤ 255 := by
  unfold sideLo
  split <;> omega

theorem sideHi_le (before : Bool) {k n : Nat} (hk : k ≤ 255) (hn : n ≤ 256) : sideHi before k n ≤ 255 := by
  unfold sideHi
  split <;> omega

theorem isLeft_iff (q : Quadrant) : isLeft q = true ↔ q = .a ∨ q = .c := by cases q <;> decide

theorem isTop_iff (q : Quadrant) : isTop q = true ↔ q = .a ∨ q = .b := by cases q <;> decide

theorem not_isLeft_iff (q : Quadrant) : isLeft q = false ↔ q = .b ∨ q = .d := by cases q <;> decide

theorem not_isTop_iff (q : Quadrant) : isTop q = false ↔ q = .c ∨ q = .d := by cases q <;> decide

/-- The bounds of a side hold exactly the coordinates of the frame on that side of the split. -/
theorem mem_side {k n : Nat} (hk : 1 ≤ k) (hkn : k ≤ n - 1) (before : Bool) (x : Nat) :
    (sideLo before k ≤ x ∧ x ≤ sideHi before k n) ↔ (x < n ∧ (before = true ↔ x < k)) := by
  cases before with
  | true =>
    simp only [sideLo, sideHi, if_true, true_iff]
    omega
  | false =>
    simp only [sideLo, sideHi, Bool.false_eq_true, if_false, false_iff]
    omega

/-- Before the split, a byte from the split on becomes the last coordinate. -/
theorem clampSide_before {k n : Nat} (hk : 1 ≤ k) {v : Byte} (hv : k ≤ v.toNat) :
    (clampByte v (sideLo true k) (sideHi true k n)).toNat = k - 1 := by
  simp only [sideLo, sideHi, if_true]
  rw [clampByte_toNat v (by omega) (by omega), if_neg (by omega), if_pos (by omega)]

/-- From the split on, a byte before it becomes the first coordinate. -/
theorem clampSide_after_low {k n : Nat} (hkn : k ≤ n - 1) (hn : n ≤ 256) {v : Byte} (hv : v.toNat < k) :
    (clampByte v (sideLo false k) (sideHi false k n)).toNat = k := by
  simp only [sideLo, sideHi, Bool.false_eq_true, if_false]
  rw [clampByte_toNat v (by omega) (by omega), if_pos hv]

section
variable {k n : Nat} (hk : 1 ≤ k) (hkn : k ≤ n - 1) (hn : n ≤ 256)
include hk hkn hn

theorem side_bounds (before : Bool) : sideLo before k ≤ sideHi before k n ∧ sideHi before k n ≤ 255 := by
  cases before with
  | true => simp only [sideLo, sideHi, if_true]; omega
  | false => simp only [sideLo, sideHi, Bool.false_eq_true, if_false]; omega

/-- A byte clamped to a side of a split is a coordinate of the frame on that side. -/
theorem clampSide_mem (before : Bool) (v : Byte) :
    (clampByte v (sideLo before k) (sideHi before k n)).toNat < n ∧
      (before = true ↔ (clampByte v (sideLo before k) (sideHi before k n)).toNat < k) := by
  obtain ⟨hle, h255⟩ := side_bounds hk hkn hn before
  obtain ⟨hlo, hhi, -⟩ := clampByte_spec v hle h255
  exact (mem_side hk hkn before _).1 ⟨hlo, hhi⟩

/-- A byte on the side already is not changed. -/
theorem clampSide_of_mem {before : Bool} {v : Byte} (hv : v.toNat < n ∧ (before = true ↔ v.toNat < k)) :
    clampByte v (sideLo before k) (sideHi before k n) = v := by
  obtain ⟨hle, h255⟩ := side_bounds hk hkn hn before
  obtain ⟨-, -, hsame⟩ := clampByte_spec v hle h255
  obtain ⟨hlo, hhi⟩ := (mem_side hk hkn before _).2 hv
  exact hsame hlo hhi

/-- From the split on, a byte outside the frame becomes the last coordinate. -/
theorem clampSide_after_high {v : Byte} (hv : n ≤ v.toNat) :
    (clampByte v (sideLo false k) (sideHi false k n)).toNat = n - 1 := by
  simp only [sideLo, sideHi, Bool.false_eq_true, if_false]
  rw [clampByte_toNat v (by omega) (by omega), if_neg (by omega), if_pos (by omega)]

end

/-- A pixel lies in a quadrant when each coordinate is on the quadrant's side of its split (R252). -/
theorem State.inQuadrant_iff (s : State) (q : Quadrant) (x y : Nat) :
    s.inQuadrant q x y ↔
      (x < s.params.frameW ∧ (isLeft q = true ↔ x < s.vrt.xsplit.toNat)) ∧
      (y < s.params.frameH ∧ (isTop q = true ↔ y < s.vrt.ysplit.toNat)) := by
  rw [State.inQuadrant, quadOf_eq_iff]
  tauto

/-! ### `WREG` of a register that accepts writes -/

/-- `WREG` of a coordinate register stores the byte `b` it then holds, persists it and replies (R181, R206). -/
theorem exec_wreg_coordinate {s : State} {r : Reg} {v b : Byte}
    (hb : (Vrt.writeReg s.params s.vrt r v).coordinate r = some b) :
    exec (.wreg (.ok r.addr) (.ok v)) s =
      .next (({ s with vrt := Vrt.writeReg s.params s.vrt r v, store := s.store.insert r.addr.toNat b } : State).replied
        [.nvPut r.addr b] codeWreg []) := by
  have hw : brokerWrite s r.addr v =
      (.ok, ({ s with vrt := Vrt.writeReg s.params s.vrt r v } : State).nvPut r.addr b) := by
    rw [brokerWrite_addr, writeAnalysis, hb]
  rw [exec_wreg_ok, hw]
  rfl

/-- A burner's x coordinate is clamped to the columns of its quadrant. -/
theorem coordinate_writeReg_burnX (g : Params) (t : Vrt) (q : Quadrant) (v : Byte) :
    (Vrt.writeReg g t (.burnX q) v).coordinate (.burnX q) = some (clampByte v (xlo t q) (xhi g t q)) := by
  rw [Vrt.writeReg, Vrt.coordinate, PerQuad.get_set, if_pos rfl]

/-- A burner's y coordinate is clamped to the rows of its quadrant. -/
theorem coordinate_writeReg_burnY (g : Params) (t : Vrt) (q : Quadrant) (v : Byte) :
    (Vrt.writeReg g t (.burnY q) v).coordinate (.burnY q) = some (clampByte v (ylo t q) (yhi g t q)) := by
  rw [Vrt.writeReg, Vrt.coordinate, PerQuad.get_set, if_pos rfl]

/-! ### The statements -/

/-- Settles O27: the broker passes the write on to the hardware, and the reply follows. -/
theorem wregHardwareWritesThrough : Obligations.WregHardwareWritesThrough := by
  unfold Obligations.WregHardwareWritesThrough
  intro s a v h
  rw [exec_wreg_ok, brokerWrite_of_hardware h]
  rfl

/-- Settles O28: the stored byte is the clamp to bounds that are bytes, since the frame's sides are at most 256. -/
theorem wregSplitsClampedAndPersisted : Obligations.WregSplitsClampedAndPersisted := by
  unfold Obligations.WregSplitsClampedAndPersisted
  intro s v clamped
  have hw := frameW_bounds s.params
  have hh := frameH_bounds s.params
  refine ⟨⟨clampByte v 1 (s.params.frameW - 1), clampByte_toNat v (by omega) (by omega), ?_⟩,
    clampByte v 1 (s.params.frameH - 1), clampByte_toNat v (by omega) (by omega), ?_⟩
  · exact exec_wreg_coordinate (r := .xsplit) rfl
  · exact exec_wreg_coordinate (r := .ysplit) rfl

/-- Settles O29: the bounds of each quadrant are bytes, whatever the splits. -/
theorem wregBurnersClampedAndPersisted : Obligations.WregBurnersClampedAndPersisted := by
  unfold Obligations.WregBurnersClampedAndPersisted
  intro s v q ax ay left top clamped
  have hax : ax = (Reg.burnX q).addr := by cases q <;> rfl
  have hay : ay = (Reg.burnY q).addr := by cases q <;> rfl
  have hw := (frameW_bounds s.params).2
  have hh := (frameH_bounds s.params).2
  have hxs := Nat.le_of_lt_succ s.vrt.xsplit.isLt
  have hys := Nat.le_of_lt_succ s.vrt.ysplit.isLt
  rw [hax, hay]
  refine ⟨⟨_, ?_, exec_wreg_coordinate (coordinate_writeReg_burnX _ _ q v)⟩,
    _, ?_, exec_wreg_coordinate (coordinate_writeReg_burnY _ _ q v)⟩
  · rw [xlo_eq_side, xhi_eq_side, clampByte_toNat v (sideLo_le _ hxs) (sideHi_le _ hxs hw)]
    simp only [sideLo, sideHi, isLeft_iff, left, clamped]
  · rw [ylo_eq_side, yhi_eq_side, clampByte_toNat v (sideLo_le _ hys) (sideHi_le _ hys hh)]
    simp only [sideLo, sideHi, isTop_iff, top, clamped]

/-- Settles O32: on each axis the stored byte is the clamp to the quadrant's side of the split. -/
theorem writtenBurnerLiesInItsQuadrant : Obligations.WrittenBurnerLiesInItsQuadrant := by
  unfold Obligations.WrittenBurnerLiesInItsQuadrant
  intro s v q hcoords ax ay xs ys
  obtain ⟨⟨hx1, hx⟩, ⟨hy1, hy⟩, -⟩ := hcoords
  have hax : ax = (Reg.burnX q).addr := by cases q <;> rfl
  have hay : ay = (Reg.burnY q).addr := by cases q <;> rfl
  have hw := (frameW_bounds s.params).2
  have hh := (frameH_bounds s.params).2
  rw [hax, hay]
  refine ⟨_, _, exec_wreg_coordinate (coordinate_writeReg_burnX _ _ q v),
    exec_wreg_coordinate (coordinate_writeReg_burnY _ _ q v), ?_⟩
  simp only [State.replied, Vrt.writeReg, PerQuad.get_set, if_true, xlo_eq_side, xhi_eq_side, ylo_eq_side, yhi_eq_side,
    ← isLeft_iff, ← isTop_iff, ← not_isLeft_iff, ← not_isTop_iff, State.inQuadrant_iff]
  refine ⟨fun y hy1 hy2 => ⟨⟨clampSide_mem hx1 hx hw _ v, hy1, hy2⟩, fun h => clampSide_of_mem hx1 hx hw h.1⟩,
    fun x hx1 hx2 => ⟨⟨⟨hx1, hx2⟩, clampSide_mem hy1 hy hh _ v⟩, fun h => clampSide_of_mem hy1 hy hh h.2⟩, ?_, ?_, ?_,
    ?_, ?_, ?_⟩
  · exact fun hl hv => hl ▸ clampSide_before hx1 hv
  · exact fun hl hv => hl ▸ clampSide_after_low hx hw hv
  · exact fun hl hv => hl ▸ clampSide_after_high hx1 hx hw hv
  · exact fun ht hv => ht ▸ clampSide_before hy1 hv
  · exact fun ht hv => ht ▸ clampSide_after_low hy hh hv
  · exact fun ht hv => ht ▸ clampSide_after_high hy1 hy hh hv

/-- Settles O33: the register holds the byte its write persisted, and a read of it changes nothing. -/
theorem coordinateReadsBackAsStored : Obligations.CoordinateReadsBackAsStored := by
  unfold Obligations.CoordinateReadsBackAsStored
  intro s a v hk
  obtain ⟨r, rfl, hr⟩ := mem_storeKeys.1 hk
  obtain ⟨b, hb, hw⟩ := brokerWrite_of_writable hr s v
  refine ⟨_, b, exec_wreg_ok r.addr v s, ?_, ?_⟩
  · rw [hw]
    exact (State.nvGet_nvPut _ _ _ _).trans (if_pos rfl)
  · rw [exec_rreg_ok, valueText, brokerRead_addr, classify_addr, buildAck_eq_replied, State.buildAck_vrt, hw,
      State.nvPut_vrt, readReg_of_coordinate hb]
    rfl

/-- Settles O24: the class by number; the counts are evaluated over all 256 addresses. -/
theorem addressClassesByRange : Obligations.AddressClassesByRange := by
  unfold Obligations.AddressClassesByRange
  refine ⟨fun a => ?_, ?_, ?_, ?_⟩
  · have hversion : (0xB2 ≤ a.toNat ∧ a.toNat ≤ 0xB3) ↔ (a.toNat = 0xB2 ∨ a.toNat = 0xB3) := by omega
    rw [classify_eq]
    simp only [hversion]
  · rfl
  · rfl
  · rfl

/-- Settles O26: each address is that of its register, whose read answers it. -/
theorem analysisRegistersByAddress : Obligations.AnalysisRegistersByAddress := by
  unfold Obligations.AnalysisRegistersByAddress
  intro s
  have hread (r : Reg) : (brokerRead s r.addr).1 = s.vrt.readReg r := congrArg Prod.fst (brokerRead_addr s r)
  exact ⟨hread .xsplit, hread .ysplit, hread (.max .a), hread (.center .a), hread (.max .b), hread (.center .b),
    hread (.max .c), hread (.center .c), hread (.max .d), hread (.center .d), hread (.burnX .a), hread (.burnY .a),
    hread (.burnX .b), hread (.burnY .b), hread (.burnX .c), hread (.burnY .c), hread (.burnX .d), hread (.burnY .d),
    hread (.burnT .a), hread (.burnT .b), hread (.burnT .c), hread (.burnT .d)⟩

end Sys2Proof.Machine

end

/-! The commands (42_command_dispatch_ack.md R205 to R220): the values an `RRSE` reads, the three outcomes of a `POLL`,
and what every command leaves unchanged. -/
section

namespace Sys2Proof.Machine

/-! ### The values of an `RRSE` -/

/-- The values of the reads of `readSequence`, in order. -/
def seqValues (s : State) : List Byte → List RegValue
  | [] => []
  | a :: l => (brokerRead s a).1 :: seqValues (brokerRead s a).2 l

theorem seqValues_length (s : State) (l : List Byte) : (seqValues s l).length = l.length := by
  induction l generalizing s with
  | nil => rfl
  | cons a l ih => rw [seqValues, List.length_cons, ih, List.length_cons]

/-- The payload of `RRSE` is each address with the text of its value (R213). -/
theorem readSequence_text (s : State) (l : List Byte) :
    (readSequence s l).1 =
      (l.zip (seqValues s l)).flatMap fun c => hexText2 c.1 ++ valueChars (classify c.1) c.2 := by
  induction l generalizing s with
  | nil => rfl
  | cons a l ih =>
    rw [seqValues, List.zip_cons_cons, List.flatMap_cons, ← ih]
    rfl

theorem exec_rrse_ok (s : State) (l : List Byte) :
    exec (.rrse (l.map .ok)) s = .next ((readSequence s l).2.replied [] codeRrse
      ((l.zip (seqValues s l)).flatMap fun c => hexText2 c.1 ++ valueChars (classify c.1) c.2)) := by
  rw [exec, execRrse, validAddrs_map_ok, ← readSequence_text, ← buildAck_eq_replied]

/-- The value a read answers, by the class of its address, is what every state with the same registers and parameters
would give it, but for the sensor's own. -/
def ReadValue (s : State) (a : Byte) (v : RegValue) : Prop :=
  (classify a = .analysis → ∃ r, regAt a = some r ∧ v = s.vrt.readReg r) ∧
  (classify a = .version → v = .w8 (if a = 0xB2 then s.params.versionB2 else s.params.versionB3)) ∧
  (classify a = .hardware → ∃ b, v = .w8 b)

theorem brokerRead_value (s : State) (a : Byte) : ReadValue s a (brokerRead s a).1 := by
  obtain ⟨-, -, hana, hver, hhw⟩ := brokerReadsByClass s a
  refine ⟨fun hc => (hana hc).2, hver, fun hc => ?_⟩
  obtain ⟨b, hb, -⟩ := hhw hc
  exact ⟨b, hb⟩

theorem SameButReads.readValue {s t : State} (h : SameButReads s t) {a : Byte} {v : RegValue} (hv : ReadValue t a v) :
    ReadValue s a v := by
  rw [ReadValue, h.vrt, h.params] at hv
  exact hv

/-- Every value of an `RRSE` comes of the registers and parameters at its start. -/
theorem seqValues_value (s : State) (l : List Byte) {j : Nat} {a : Byte} {v : RegValue} (ha : l[j]? = some a)
    (hv : (seqValues s l)[j]? = some v) : ReadValue s a v := by
  induction l generalizing s j with
  | nil => nomatch ha
  | cons a' l ih =>
    cases j with
    | zero =>
      obtain rfl := Option.some.inj ha
      obtain rfl := Option.some.inj hv
      exact brokerRead_value s a'
    | succ j => exact (brokerRead_same s a').readValue (ih _ ha hv)

/-! ### The sensor's answers in an `RRSE` -/

/-- The first `n` values the sensor gives: its answers on offer, then free values. -/
def sensorStream (answers : List Byte) (draws n : Nat) : List Byte :=
  answers.take n ++ (List.range (n - answers.length)).map fun j => Config.sensorDraw (draws + j)

theorem sensorStream_cons (x : Byte) (answers : List Byte) (draws n : Nat) :
    sensorStream (x :: answers) draws (n + 1) = x :: sensorStream answers draws n := by
  simp [sensorStream]

theorem sensorStream_nil (draws n : Nat) :
    sensorStream [] draws (n + 1) = Config.sensorDraw draws :: sensorStream [] (draws + 1) n := by
  simp [sensorStream, List.range_succ_eq_map, Nat.add_assoc, Nat.add_comm 1]

/-- A read that is not of a Hardware address takes nothing of the sensor's. -/
theorem brokerRead_sensor_of_ne {s : State} {a : Byte} (h : classify a ≠ .hardware) :
    (brokerRead s a).2.sensorAnswers = s.sensorAnswers ∧ (brokerRead s a).2.draws = s.draws := by
  cases hc : classify a with
  | hardware => exact absurd hc h
  | version => rw [brokerRead_of_version hc]; exact ⟨rfl, rfl⟩
  | analysis =>
    obtain ⟨r, rfl⟩ := exists_addr_of_analysis hc
    rw [brokerRead_addr]
    exact ⟨rfl, rfl⟩

theorem sensorValues_cons_of_ne {a : Byte} (h : classify a ≠ .hardware) (l : List Byte) (v : RegValue)
    (vals : List RegValue) : sensorValues (a :: l) (v :: vals) = sensorValues l vals := by
  cases v with
  | w8 b => rw [sensorValues, if_neg h]
  | w16 b => rw [sensorValues]

/-- The Hardware addresses of a list take the sensor's answers in order and, past their end, one free value each. -/
theorem seqValues_sensor (s : State) (l : List Byte) {n : Nat}
    (hn : n = (l.filter fun a => classify a = .hardware).length) :
    sensorValues l (seqValues s l) = sensorStream s.sensorAnswers s.draws n ∧
    (readSequence s l).2.sensorAnswers = s.sensorAnswers.drop n ∧
    (readSequence s l).2.draws = s.draws + (n - s.sensorAnswers.length) := by
  induction l generalizing s n with
  | nil =>
    subst hn
    simp [sensorValues, sensorStream, readSequence]
  | cons a l ih =>
    have hread : (readSequence s (a :: l)).2 = (readSequence (brokerRead s a).2 l).2 := rfl
    rw [seqValues, hread]
    by_cases hc : classify a = .hardware
    · rw [List.filter_cons_of_pos (by simpa using hc), List.length_cons] at hn
      subst hn
      obtain ⟨hvals, hleft, hdraws⟩ := ih (brokerRead s a).2 rfl
      rw [brokerRead_of_hardware hc] at hvals hleft hdraws ⊢
      rw [sensorValues, if_pos hc, hvals, hleft, hdraws]
      rcases s.hwRead_eq a with ⟨x, rest, hs, heq⟩ | ⟨hs, heq⟩ <;> rw [heq, hs]
      · refine ⟨(sensorStream_cons _ _ _ _).symm, by simp, ?_⟩
        simp
      · refine ⟨(sensorStream_nil _ _).symm, by simp, ?_⟩
        simp only [List.length_nil]
        omega
    · rw [List.filter_cons_of_neg (by simpa using hc)] at hn
      obtain ⟨hsensor, hdraw⟩ := brokerRead_sensor_of_ne (s := s) hc
      rw [sensorValues_cons_of_ne hc, ← hsensor, ← hdraw]
      exact ih _ hn

/-! ### The length of an `RRSE` payload -/

/-- Each address takes its two characters and those of its value (30_encoding.md R114). -/
theorem readSequence_length (s : State) (l : List Byte) : (readSequence s l).1.length = (l.map seqChars).sum := by
  induction l generalizing s with
  | nil => rfl
  | cons a l ih =>
    have htext : (valueText s a).1.length + 2 = seqChars a := by
      rw [valueText, valueChars_eq, seqChars]
      split <;> rfl
    simp only [readSequence, List.length_append, hexText2_length, ih, List.map_cons, List.sum_cons]
    omega

theorem sum_seqChars_le (l : List Byte) : (l.map seqChars).sum ≤ 6 * l.length := by
  induction l with
  | nil => simp
  | cons a l ih =>
    have : seqChars a ≤ 6 := by unfold seqChars; split <;> omega
    rw [List.map_cons, List.sum_cons, List.length_cons]
    omega

/-! ### `POLL` -/

theorem State.streamConflict_of_none {s : State} (h : s.conflictAnswers = []) :
    s.streamConflict = (Config.conflictDraw s.draws, { s with draws := s.draws + 1 }) := by
  rw [State.streamConflict, h]

/-- `min(f, 25)` of R215. -/
theorem clampFreq_eq (f : Byte) : clampFreq f = BitVec.ofNat 8 (min f.toNat 25) := by
  have hmax : Config.pollMax.toNat = 25 := rfl
  apply BitVec.eq_of_toNat_eq
  rw [BitVec.toNat_ofNat, clampFreq]
  split
  · rename_i h
    rw [BitVec.lt_def, hmax] at h
    omega
  · rename_i h
    rw [BitVec.lt_def, hmax] at h
    omega

theorem pollAllowed_ok (f : Byte) (s : State) :
    pollAllowed (.ok f) s = s.replied [.setPoll (BitVec.ofNat 8 (min f.toNat 25))] codePoll [] := by
  rw [← clampFreq_eq]
  rfl

theorem pollAllowed_of_invalid {x : Operand} (h : ∀ f, x ≠ .ok f) (s : State) :
    pollAllowed x s = s.replied [.diag s.hand .invalidCommandData] codePoll [] := by
  rcases pollAllowed_eq x s with ⟨f, hf, -⟩ | ⟨-, heq⟩
  · exact absurd hf (h f)
  · rw [heq]
    rfl

theorem exec_poll_of_no_conflict {s : State} (h : s.streamConflict.1 = false) (x : Operand) :
    exec (.poll x) s = .next (pollAllowed x s.streamConflict.2) := by
  rw [exec, execPoll, h]
  rfl

/-! ### What a command does, and what it leaves -/

/-- What the command `i` run on `s` may do: write the register and key that a `WREG` addresses, take answers, draw free
values, make outputs, and leave a reply in the port in hand, its byte count right where a frame can carry the
command. -/
structure CommandEffect (i : Instr) (s t : State) : Prop where
  params : t.params = s.params
  hand : t.hand = s.hand
  bootPending : t.bootPending = s.bootPending
  inputs : t.inputs = s.inputs
  ports : t.ports = s.ports ∨
    ∃ bytes n, t.ports = s.ports.set s.hand { s.port s.hand with ack := bytes, ackLen := n } ∧
      (i.wellFormed = true → n.toNat = bytes.length)
  registers : (t.vrt = s.vrt ∧ t.store = s.store) ∨
    ∃ a v r b, i = .wreg (.ok a) (.ok v) ∧ regAt a = some r ∧
      t.vrt = Vrt.writeReg s.params s.vrt r v ∧ t.vrt.coordinate r = some b ∧ t.store = s.store.insert a.toNat b
  conflictAnswers : (∀ f, i ≠ .poll f) → t.conflictAnswers = s.conflictAnswers
  sensorAnswers : (∀ a, i ≠ .rreg a) → (∀ l, i ≠ .rrse l) → t.sensorAnswers = s.sensorAnswers

theorem CommandEffect.refl (i : Instr) (s : State) : CommandEffect i s s :=
  ⟨rfl, rfl, rfl, rfl, .inl rfl, .inl ⟨rfl, rfl⟩, fun _ => rfl, fun _ _ => rfl⟩

theorem CommandEffect.emit {i : Instr} {s t : State} (h : CommandEffect i s t) (o : Output) :
    CommandEffect i s (t.emit o) :=
  ⟨h.params, h.hand, h.bootPending, h.inputs, h.ports, h.registers, h.conflictAnswers, h.sensorAnswers⟩

theorem CommandEffect.raise (i : Instr) (s : State) (e : ErrorKind) : CommandEffect i s (s.raise e) :=
  (CommandEffect.refl i s).emit _

/-- A reply whose payload is at most 1536 bytes long has a byte count below 2048 (30_encoding.md R115). -/
theorem CommandEffect.reply {i : Instr} {s u : State} (h : CommandEffect i s u) (hports : u.ports = s.ports)
    (c : Bytes4) {m : List Byte} (hm : i.wellFormed = true → m.length ≤ 1536) :
    CommandEffect i s (u.buildAck c m) := by
  refine ⟨h.params, h.hand, h.bootPending, h.inputs,
    .inr ⟨ackFrame u.params.ackFiller c m, BitVec.ofNat 11 (16 + m.length), ?_, fun hwf => ?_⟩,
    h.registers, h.conflictAnswers, h.sensorAnswers⟩
  · rw [State.buildAck_ports, State.port, hports, h.hand, State.port]
  · have := hm hwf
    rw [ackFrame_length, BitVec.toNat_ofNat, Nat.mod_eq_of_lt (by omega)]

theorem CommandEffect.read {i : Instr} {s u : State} (h : SameButReads s u)
    (hi : (∃ a, i = .rreg a) ∨ ∃ l, i = .rrse l) : CommandEffect i s u :=
  ⟨h.params, h.hand, h.bootPending, h.inputs, .inl h.ports, .inl ⟨h.vrt, h.store⟩, fun _ => h.conflictAnswers,
    fun hr hs => (hi.elim (fun ⟨a, ha⟩ => hr a ha) fun ⟨l, hl⟩ => hs l hl).elim⟩

theorem CommandEffect.write (s : State) (a v : Byte) :
    CommandEffect (.wreg (.ok a) (.ok v)) s (brokerWrite s a v).2 ∧ (brokerWrite s a v).2.ports = s.ports := by
  rcases brokerWrite_eq s a v with ⟨-, hw⟩ | hw | ⟨r, b, -, hr, hb, hw⟩ <;> rw [hw]
  · exact ⟨(CommandEffect.refl _ s).emit _, rfl⟩
  · exact ⟨CommandEffect.refl _ s, rfl⟩
  · exact ⟨⟨rfl, rfl, rfl, rfl, .inl rfl, .inr ⟨a, v, r, b, rfl, hr, rfl, hb, rfl⟩, fun _ => rfl, fun _ _ => rfl⟩, rfl⟩

theorem CommandEffect.sample (x : Operand) (s : State) :
    CommandEffect (.poll x) s s.streamConflict.2 ∧ s.streamConflict.2.ports = s.ports := by
  rcases s.streamConflict_eq with ⟨v, rest, -, h⟩ | ⟨-, h⟩ <;> rw [h] <;>
    exact ⟨⟨rfl, rfl, rfl, rfl, .inl rfl, .inl ⟨rfl, rfl⟩, fun hp => (hp x rfl).elim, fun _ _ => rfl⟩, rfl⟩

/-- Every command completes with its effect. -/
theorem exec_effect (i : Instr) (s : State) : ∃ t, exec i s = .next t ∧ CommandEffect i s t := by
  obtain ⟨t, ht, hcase⟩ := exec_cases i s
  refine ⟨t, ht, ?_⟩
  cases hcase with
  | wreg a v =>
    obtain ⟨hw, hports⟩ := CommandEffect.write s a v
    exact hw.reply hports _ fun _ => by simp
  | wregInvalid => exact (CommandEffect.raise _ s _).reply rfl _ fun _ => by simp
  | rreg a =>
    have hsame := valueText_same s a
    refine (CommandEffect.read hsame (.inl ⟨_, rfl⟩)).reply hsame.ports _ fun _ => ?_
    rw [valueText, valueChars_eq]
    split <;> simp
  | rregInvalid => exact .raise _ s _
  | rrse l =>
    have hsame := readSequence_same s l
    refine (CommandEffect.read hsame (.inr ⟨_, rfl⟩)).reply hsame.ports _ fun hwf => ?_
    simp only [Instr.wellFormed, Bool.and_eq_true, decide_eq_true_eq, List.length_map] at hwf
    have hlen : l.length ≤ 256 := hwf.2
    have := sum_seqChars_le l
    rw [readSequence_length]
    omega
  | rrseInvalid => exact .raise _ s _
  | pollConflict x => exact (CommandEffect.sample x s).1.emit _
  | poll x =>
    obtain ⟨hsample, hports⟩ := CommandEffect.sample x s
    rcases pollAllowed_eq x s.streamConflict.2 with ⟨f, -, h⟩ | ⟨-, h⟩ <;> rw [h]
    · exact (hsample.emit _).reply hports _ fun _ => by simp
    · exact (hsample.emit _).reply hports _ fun _ => by simp
  | unknown => exact .raise _ s _

/-! ### Invalid operands -/

/-- Without both operands `WREG` makes no write and still replies (R207). -/
theorem exec_wreg_invalid {x y : Operand} (h : ∀ a v, ¬(x = .ok a ∧ y = .ok v)) (s : State) :
    exec (.wreg x y) s = .next ((s.raise .invalidCommandData).buildAck codeWreg []) := by
  obtain ⟨t, ht, hcase⟩ := exec_cases (.wreg x y) s
  cases hcase with
  | wreg a v => exact absurd ⟨rfl, rfl⟩ (h a v)
  | wregInvalid => exact ht

theorem exec_rreg_invalid {x : Operand} (h : ∀ a, x ≠ .ok a) (s : State) :
    exec (.rreg x) s = .next (s.raise .invalidCommandData) := by
  obtain ⟨t, ht, hcase⟩ := exec_cases (.rreg x) s
  cases hcase with
  | rreg a => exact absurd rfl (h a)
  | rregInvalid => exact ht

theorem exec_rrse_invalid {l : List Operand} (h : validAddrs l = none) (s : State) :
    exec (.rrse l) s = .next (s.raise .invalidCommandData) := by
  rw [exec, execRrse, h]

/-- One invalid address spoils the list (R212). -/
theorem validAddrs_eq_none {l : List Operand} {x : Operand} (hx : x ∈ l) (h : ∀ a, x ≠ .ok a) :
    validAddrs l = none := by
  rw [Option.eq_none_iff_forall_ne_some]
  intro m hm
  rw [validAddrs_eq_some.1 hm] at hx
  obtain ⟨a, -, rfl⟩ := List.mem_map.1 hx
  exact h a rfl

/-! ### The registers, keys and ports after a command -/

section
variable {i : Instr} {s t : State} (h : CommandEffect i s t)
include h

/-- The computed registers and the identity stay (10_state.md R40). -/
theorem CommandEffect.computed :
    t.vrt.max = s.vrt.max ∧ t.vrt.center = s.vrt.center ∧ t.vrt.burnT = s.vrt.burnT ∧ t.vrt.devId = s.vrt.devId := by
  rcases h.registers with ⟨hv, -⟩ | ⟨a, v, r, b, -, -, hv, -⟩ <;> rw [hv]
  · exact ⟨rfl, rfl, rfl, rfl⟩
  · cases r <;> exact ⟨rfl, rfl, rfl, rfl⟩

/-- Only the key of a `WREG` of a coordinate is written. -/
theorem CommandEffect.lookup {k : Nat} (hk : ∀ a v, i = .wreg (.ok a) (.ok v) → a.toNat ∈ storeKeys → k ≠ a.toNat) :
    t.store.lookup k = s.store.lookup k := by
  rcases h.registers with ⟨-, hs⟩ | ⟨a, v, r, b, hi, hr, -, hb, hs⟩ <;> rw [hs]
  rw [Memory.lookup_insert, if_neg]
  exact (hk a v hi (List.contains_iff_mem.1 (storeKeys_of_coordinate hr hb))).symm

/-- Only the register a `WREG` addresses is written. -/
theorem CommandEffect.readReg {r : Reg} (hr : ∀ a v, i = .wreg (.ok a) (.ok v) → regAt a ≠ some r) :
    t.vrt.readReg r = s.vrt.readReg r := by
  rcases h.registers with ⟨hv, -⟩ | ⟨a, v, r', b, hi, hr', hv, -⟩ <;> rw [hv]
  exact readReg_writeReg_of_ne (by rintro rfl; exact hr a v hi hr') _ _ _

theorem CommandEffect.registers_of_not_wreg (hi : ∀ x y, i ≠ .wreg x y) : t.vrt = s.vrt ∧ t.store = s.store := by
  rcases h.registers with hsame | ⟨a, v, r, b, hw, -⟩
  · exact hsame
  · exact absurd hw (hi _ _)

theorem CommandEffect.ports_length : t.ports.length = s.ports.length := by
  rcases h.ports with hp | ⟨bytes, n, hp, -⟩ <;> rw [hp]
  exact List.length_set

theorem CommandEffect.port_of_ne {p : Nat} (hne : p ≠ s.hand) : t.port p = s.port p := by
  rcases h.ports with hp | ⟨bytes, n, hp, -⟩ <;> rw [State.port, hp]
  · rfl
  · exact State.port_setPort_of_ne (s := s) hne _

/-- Of the port in hand only the reply fields may change; where there is no such port, none do. -/
theorem CommandEffect.port_hand :
    t.port s.hand = { s.port s.hand with ack := (t.port s.hand).ack, ackLen := (t.port s.hand).ackLen } := by
  rcases h.ports with hp | ⟨bytes, n, hp, -⟩
  · rw [State.port, hp]
    rfl
  · by_cases hlt : s.hand < s.ports.length
    · have hself : t.port s.hand = { s.port s.hand with ack := bytes, ackLen := n } := by
        rw [State.port, hp]
        exact State.port_setPort_self (s := s) hlt _
      rw [hself]
    · rw [State.port, hp, List.set_eq_of_length_le (Nat.le_of_not_lt hlt)]
      rfl

theorem CommandEffect.ps_hand : (t.port s.hand).ps = (s.port s.hand).ps := by
  rw [h.port_hand]

end

/-- Outputs without a reply hold none that a test for replies picks out. -/
theorem filter_eq_nil_of_no_reply {o : List Output} (hno : ∀ p bytes, .emitAck p bytes ∉ o) {isReply : Output → Bool}
    (h : ∀ x, isReply x = true → ∃ p bytes, x = .emitAck p bytes) : o.filter isReply = [] := by
  rw [List.filter_eq_nil_iff]
  intro x hx hreply
  obtain ⟨p, bytes, rfl⟩ := h x hreply
  exact hno p bytes hx

/-! ### The statements -/

/-- Settles O35: the values are those of the reads in order, no read changes the registers or parameters, and each makes
the calls of its class. -/
theorem rrseReadsInOrderAndReplies : Obligations.RrseReadsInOrderAndReplies := by
  unfold Obligations.RrseReadsInOrderAndReplies
  exact fun s l => ⟨seqValues s l, _, seqValues_length s l, readSequence_same s l, readSequence_outputs s l,
    exec_rrse_ok s l, fun _ _ _ => seqValues_value s l⟩

/-- Settles O36: each Hardware read takes the next answer or draws the next free value, and no other read does. -/
theorem rrseTakesSensorAnswersInOrder : Obligations.RrseTakesSensorAnswersInOrder := by
  unfold Obligations.RrseTakesSensorAnswersInOrder
  intro s l n short
  obtain ⟨hvals, hleft, hdraws⟩ := seqValues_sensor s l (n := n) rfl
  exact ⟨seqValues s l, _, seqValues_length s l, hvals, hleft, hdraws, exec_rrse_ok s l⟩

/-- Settles O37: the payload's length is the sum over the addresses, at most 6 each, and the count fits 11 bits. -/
theorem rrseReplyLength : Obligations.RrseReplyLength := by
  unfold Obligations.RrseReplyLength
  intro s l hp hlen m
  have hm : (readSequence s l).1.length = m := readSequence_length s l
  have hle : m ≤ 6 * l.length := sum_seqChars_le l
  have hsame := readSequence_same s l
  have hexec : exec (.rrse (l.map .ok)) s =
      .next ((readSequence s l).2.buildAck codeRrse (readSequence s l).1) := by
    rw [exec, execRrse, validAddrs_map_ok]
  have hport : ((readSequence s l).2.buildAck codeRrse (readSequence s l).1).port (readSequence s l).2.hand = _ :=
    State.port_setPort_self (by rw [hsame.hand, hsame.ports]; exact hp) _
  refine ⟨_, hexec, ?_⟩
  rw [State.buildAck_hand, hport]
  dsimp only
  rw [ackFrame_length, ackFrame_declaredLength, hm, BitVec.toNat_ofNat]
  exact ⟨rfl, Nat.mod_eq_of_lt (by omega), by omega, rfl⟩

/-- Settles O38: the sample takes the answer `false`, and the operand then decides between the two forms of `POLL`. -/
theorem pollSetsTheClampedFrequency : Obligations.PollSetsTheClampedFrequency := by
  unfold Obligations.PollSetsTheClampedFrequency
  intro s f x rest h
  have hsample := State.streamConflict_of_answer h
  have hno := congrArg Prod.fst hsample
  rw [exec_poll_of_no_conflict hno, exec_poll_of_no_conflict hno, hsample]
  exact ⟨congrArg _ (pollAllowed_ok f _), fun hx => congrArg _ (pollAllowed_of_invalid hx _)⟩

/-- Settles O40: the sample answers one Bool, on offer or free, and either decides the same way. -/
theorem pollCompletesForEitherPredicate : Obligations.PollCompletesForEitherPredicate := by
  unfold Obligations.PollCompletesForEitherPredicate
  intro s x after
  have hafter {c : Bool} {u : State} (h : s.streamConflict = (c, u)) : exec (.poll x) s = .next (after c u) := by
    cases c with
    | true => rw [exec_poll_of_conflict (congrArg Prod.fst h), h]; rfl
    | false =>
      rw [exec_poll_of_no_conflict (congrArg Prod.fst h), h]
      cases x with
      | ok f => exact congrArg _ (pollAllowed_ok f u)
      | missing => exact congrArg _ (pollAllowed_of_invalid (x := .missing) (fun _ => nofun) u)
      | malformed => exact congrArg _ (pollAllowed_of_invalid (x := .malformed) (fun _ => nofun) u)
  exact ⟨fun c rest h => hafter (State.streamConflict_of_answer h),
    fun h => ⟨_, hafter (State.streamConflict_of_none h)⟩⟩

/-- Settles O41: the form of each command for invalid operands. -/
theorem invalidDataWritesAndReadsNothing : Obligations.InvalidDataWritesAndReadsNothing := by
  unfold Obligations.InvalidDataWritesAndReadsNothing
  intro s x y l
  refine ⟨fun h => exec_wreg_invalid (fun a v hav => ?_) s, fun h => exec_rreg_invalid h s,
    fun ⟨z, hz, h⟩ => exec_rrse_invalid (validAddrs_eq_none hz h) s⟩
  obtain ⟨rfl, rfl⟩ := hav
  exact h.elim (fun hx => hx a rfl) fun hy => hy v rfl

/-- Settles O43: what the effect of a command allows, field by field. -/
theorem commandsFrame : Obligations.CommandsFrame := by
  unfold Obligations.CommandsFrame
  intro i s
  obtain ⟨t, ht, h⟩ := exec_effect i s
  obtain ⟨hmax, hcenter, hburnT, hdevId⟩ := h.computed
  exact ⟨t, ht, h.params, h.hand, h.bootPending, h.inputs, h.ports_length, fun _ => h.port_of_ne, h.port_hand,
    hmax, hcenter, hburnT, hdevId, fun _ => h.lookup, fun _ => h.readReg, h.registers_of_not_wreg, h.conflictAnswers,
    h.sensorAnswers⟩

/-- Settles O44: what a command does before its reply sends none, and the reply comes last. -/
theorem atMostOneReplyPerCommand : Obligations.AtMostOneReplyPerCommand := by
  unfold Obligations.AtMostOneReplyPerCommand
  intro i s
  obtain ⟨u, hu, hexec⟩ := exec_replies_last i s
  obtain ⟨o, ho, hno⟩ := hu.outputs
  rcases hexec with h | ⟨payload, h⟩
  · refine ⟨u, o, h, ho, fun p bytes hmem => absurd hmem (hno p bytes), ?_⟩
    rw [filter_eq_nil_of_no_reply hno fun x hx => ?_]
    · exact Nat.zero_le 1
    · cases x with
      | emitAck p bytes => exact ⟨p, bytes, rfl⟩
      | _ => nomatch hx
  · refine ⟨_, o ++ [.emitAck s.hand (ackFrame s.params.ackFiller i.code payload)], h, ?_, fun p bytes hmem => ?_, ?_⟩
    · rw [State.buildAck_outputs, ho, hu.hand, hu.params, List.append_assoc]
    · rcases List.mem_append.1 hmem with hmem | hmem
      · exact absurd hmem (hno p bytes)
      · obtain ⟨rfl, rfl⟩ := Output.emitAck.inj (List.mem_singleton.1 hmem)
        exact ⟨rfl, List.getLast?_concat⟩
    · rw [List.filter_append, filter_eq_nil_of_no_reply hno fun x hx => ?_]
      · exact Nat.le_refl 1
      · cases x with
        | emitAck p bytes => exact ⟨p, bytes, rfl⟩
        | _ => nomatch hx

end Sys2Proof.Machine

end

/-! The results of a recompute (43_quadrant_reducer.md R253 to R262): the running maximum is the greatest pixel, the
centre lies in its quadrant, and what is committed is what is broadcast. -/
section

namespace Sys2Proof.Machine

/-! ### The centre -/

/-- The middle of a side of a split lies on that side. -/
theorem middle_side {k n : Nat} (hk : 1 ≤ k) (hkn : k ≤ n - 1) (before : Bool) :
    (if before then k else k + n) / 2 < n ∧ (before = true ↔ (if before then k else k + n) / 2 < k) := by
  cases before with
  | true => simp only [if_true, true_iff]; omega
  | false => simp only [Bool.false_eq_true, if_false, false_iff]; omega

theorem centreX_eq_min (w xs : Nat) (q : Quadrant) :
    centreX w xs q = min ((if isLeft q then xs else xs + w) / 2) (w - 1) := by
  rw [centreX, Nat.zero_add]

theorem centreY_eq_min (h ys : Nat) (q : Quadrant) :
    centreY h ys q = min ((if isTop q then ys else ys + h) / 2) (h - 1) := by
  rw [centreY, Nat.zero_add]

/-- With the splits in range the clamp to the frame does not act on the centre. -/
theorem State.coordsOk.centre_eq {s : State} (h : s.coordsOk) (q : Quadrant) :
    centreX s.params.frameW s.vrt.xsplit.toNat q =
      (if isLeft q then s.vrt.xsplit.toNat else s.vrt.xsplit.toNat + s.params.frameW) / 2 ∧
    centreY s.params.frameH s.vrt.ysplit.toNat q =
      (if isTop q then s.vrt.ysplit.toNat else s.vrt.ysplit.toNat + s.params.frameH) / 2 := by
  obtain ⟨⟨hx1, hx⟩, ⟨hy1, hy⟩, -⟩ := h
  obtain ⟨hltX, -⟩ := middle_side hx1 hx (isLeft q)
  obtain ⟨hltY, -⟩ := middle_side hy1 hy (isTop q)
  rw [centreX_eq_min, centreY_eq_min]
  exact ⟨Nat.min_eq_left (Nat.le_sub_one_of_lt hltX), Nat.min_eq_left (Nat.le_sub_one_of_lt hltY)⟩

theorem State.coordsOk.centre_inQuadrant {s : State} (h : s.coordsOk) (q : Quadrant) :
    s.inQuadrant q (centreX s.params.frameW s.vrt.xsplit.toNat q) (centreY s.params.frameH s.vrt.ysplit.toNat q) := by
  obtain ⟨hcx, hcy⟩ := h.centre_eq q
  obtain ⟨⟨hx1, hx⟩, ⟨hy1, hy⟩, -⟩ := h
  rw [hcx, hcy, State.inQuadrant_iff]
  exact ⟨middle_side hx1 hx _, middle_side hy1 hy _⟩

/-! ### The maximum -/

theorem maxHalf_spec (a b : Half) : a ≤ maxHalf a b ∧ b ≤ maxHalf a b ∧ (maxHalf a b = a ∨ maxHalf a b = b) := by
  unfold maxHalf
  split
  · rename_i h
    exact ⟨BitVec.le_of_lt h, BitVec.le_refl b, .inr rfl⟩
  · rename_i h
    exact ⟨BitVec.le_refl a, BitVec.not_lt.1 h, .inl rfl⟩

/-- A running maximum is at least its start and every element, and is one of them. -/
theorem foldl_maxHalf_spec (l : List Half) (a : Half) :
    a ≤ l.foldl maxHalf a ∧ (∀ x ∈ l, x ≤ l.foldl maxHalf a) ∧ (l.foldl maxHalf a = a ∨ l.foldl maxHalf a ∈ l) := by
  induction l generalizing a with
  | nil => exact ⟨BitVec.le_refl a, by simp, .inl rfl⟩
  | cons b l ih =>
    obtain ⟨ha, hb, hab⟩ := maxHalf_spec a b
    obtain ⟨hstart, hall, hmem⟩ := ih (maxHalf a b)
    refine ⟨BitVec.le_trans ha hstart, List.forall_mem_cons.2 ⟨BitVec.le_trans hb hstart, hall⟩, ?_⟩
    rw [List.foldl_cons, List.mem_cons]
    rcases hmem with hmem | hmem
    · rcases hab with hab | hab
      · exact .inl (hmem.trans hab)
      · exact .inr (.inl (hmem.trans hab))
    · exact .inr (.inr hmem)

/-- From a start of 0 and at least one element, a running maximum is an element. -/
theorem foldl_maxHalf_mem {l : List Half} (h : l ≠ []) : l.foldl maxHalf 0 ∈ l := by
  obtain ⟨-, hall, hmem⟩ := foldl_maxHalf_spec l 0
  rcases hmem with hzero | hmem
  · obtain ⟨x, l', rfl⟩ := List.exists_cons_of_ne_nil h
    have hx := hall x List.mem_cons_self
    rw [hzero] at hx ⊢
    rw [BitVec.le_zero_iff.1 hx]
    exact List.mem_cons_self
  · exact hmem

theorem mem_coords {w h : Nat} {c : Nat × Nat} : c ∈ coords w h ↔ c.1 < w ∧ c.2 < h := by
  obtain ⟨x, y⟩ := c
  simp [coords, and_comm]

/-- The pixels the maximum of a quadrant runs over are those of the quadrant. -/
theorem mem_quadrant_pixels {s : State} {frame : List Half} {q : Quadrant} {v : Half} :
    v ∈ (((coords s.params.frameW s.params.frameH).filter fun c =>
        quadOf s.vrt.xsplit.toNat s.vrt.ysplit.toNat c.1 c.2 = q).map fun c => pix s.params.frameW frame c.1 c.2) ↔
      ∃ x y, s.inQuadrant q x y ∧ pix s.params.frameW frame x y = v := by
  simp only [List.mem_map, List.mem_filter, mem_coords, decide_eq_true_eq, Prod.exists, State.inQuadrant, and_assoc]

/-- `max[q]` is at least every pixel of its quadrant and equals one of them (R253). -/
theorem State.coordsOk.quadMax_spec {s : State} (h : s.coordsOk) (frame : List Half) (q : Quadrant) :
    let m := quadMax s.params.frameW s.params.frameH frame s.vrt.xsplit.toNat s.vrt.ysplit.toNat q
    (∀ x y, s.inQuadrant q x y → pix s.params.frameW frame x y ≤ m) ∧
      ∃ x y, s.inQuadrant q x y ∧ pix s.params.frameW frame x y = m := by
  have hcentre := mem_quadrant_pixels (frame := frame) |>.2 ⟨_, _, h.centre_inQuadrant q, rfl⟩
  obtain ⟨-, hall, -⟩ := foldl_maxHalf_spec (((coords s.params.frameW s.params.frameH).filter fun c =>
    quadOf s.vrt.xsplit.toNat s.vrt.ysplit.toNat c.1 c.2 = q).map fun c => pix s.params.frameW frame c.1 c.2) 0
  exact ⟨fun x y hq => hall _ (mem_quadrant_pixels.2 ⟨x, y, hq, rfl⟩),
    mem_quadrant_pixels.1 (foldl_maxHalf_mem (List.ne_nil_of_mem hcentre))⟩

/-! ### The statements -/

/-- Settles O48: the middle of a side of each split lies on that side and inside the frame. -/
theorem centreLiesInItsQuadrant : Obligations.CentreLiesInItsQuadrant := by
  unfold Obligations.CentreLiesInItsQuadrant
  intro s q h xs ys
  simp only [← isLeft_iff, ← isTop_iff]
  exact ⟨h.centre_inQuadrant q, h.centre_eq q⟩

/-- Settles O46: each quadrant holds its centre pixel at least, so the running maximum from 0 is one of its pixels. -/
theorem recomputeStoresTheMaximum : Obligations.RecomputeStoresTheMaximum := by
  unfold Obligations.RecomputeStoresTheMaximum
  intro s frame h hlen
  refine ⟨_, recompute_next hlen, fun q => ?_⟩
  rw [State.emit_vrt, Vrt.commit, PerQuad.get_tabulate]
  exact h.quadMax_spec frame q

/-- Settles O47: the commit's values for one quadrant. -/
theorem recomputeSamplesCentreAndBurner : Obligations.RecomputeSamplesCentreAndBurner := by
  unfold Obligations.RecomputeSamplesCentreAndBurner
  intro s frame hlen
  refine ⟨_, recompute_next hlen, fun q => ?_⟩
  simp only [← isLeft_iff, ← isTop_iff, ← centreX_eq_min, ← centreY_eq_min]
  exact ⟨PerQuad.get_tabulate _ q, PerQuad.get_tabulate _ q⟩

/-- Settles O50: the broadcast is made from the VRT just committed; another size fails the one test of the recompute. -/
theorem recomputeBroadcastsOnce : Obligations.RecomputeBroadcastsOnce := by
  unfold Obligations.RecomputeBroadcastsOnce
  exact fun s frame => ⟨fun h => ⟨_, recompute_next h, rfl⟩, fun h => if_neg h⟩

end Sys2Proof.Machine

end

/-! Hard reset and the boot load (70_reset_and_hazards.md R320 to R323): the splits and burners the boot load makes, and
that a stored split comes back. -/
section

namespace Sys2Proof.Machine

/-! ### The boot load -/

theorem bootVrt_xsplit (s : State) :
    (bootVrt s).xsplit = clampByte ((s.nvGet 0xC0).getD s.params.defXsplit) 1 (s.params.frameW - 1) := rfl

theorem bootVrt_ysplit (s : State) :
    (bootVrt s).ysplit = clampByte ((s.nvGet 0xC1).getD s.params.defYsplit) 1 (s.params.frameH - 1) := rfl

/-- The burners are clamped under the splits just loaded (R322). -/
theorem bootVrt_burnX (s : State) (q : Quadrant) :
    (bootVrt s).burnX.get q = clampByte ((s.nvGet (burnKey q false)).getD (s.params.defBurnX.get q))
      (sideLo (isLeft q) (bootVrt s).xsplit.toNat) (sideHi (isLeft q) (bootVrt s).xsplit.toNat s.params.frameW) :=
  PerQuad.get_tabulate _ q

theorem bootVrt_burnY (s : State) (q : Quadrant) :
    (bootVrt s).burnY.get q = clampByte ((s.nvGet (burnKey q true)).getD (s.params.defBurnY.get q))
      (sideLo (isTop q) (bootVrt s).ysplit.toNat) (sideHi (isTop q) (bootVrt s).ysplit.toNat s.params.frameH) :=
  PerQuad.get_tabulate _ q

/-- A byte clamped to the bounds of a split is in range (10_state.md R36). -/
theorem clampSplit_bounds (v : Byte) {n : Nat} (h2 : 2 ≤ n) (hn : n ≤ 256) :
    1 ≤ (clampByte v 1 (n - 1)).toNat ∧ (clampByte v 1 (n - 1)).toNat ≤ n - 1 := by
  obtain ⟨hlo, hhi, -⟩ := clampByte_spec v (lo := 1) (hi := n - 1) (by omega) (by omega)
  exact ⟨hlo, hhi⟩

theorem bootVrt_splits (s : State) :
    (1 ≤ (bootVrt s).xsplit.toNat ∧ (bootVrt s).xsplit.toNat ≤ s.params.frameW - 1) ∧
    (1 ≤ (bootVrt s).ysplit.toNat ∧ (bootVrt s).ysplit.toNat ≤ s.params.frameH - 1) := by
  obtain ⟨hw2, hw⟩ := frameW_bounds s.params
  obtain ⟨hh2, hh⟩ := frameH_bounds s.params
  rw [bootVrt_xsplit, bootVrt_ysplit]
  exact ⟨clampSplit_bounds _ hw2 hw, clampSplit_bounds _ hh2 hh⟩

theorem bootLoad_burner_inQuadrant (s : State) (q : Quadrant) :
    s.bootLoad.inQuadrant q (s.bootLoad.vrt.burnX.get q).toNat (s.bootLoad.vrt.burnY.get q).toNat := by
  obtain ⟨⟨hx1, hx⟩, hy1, hy⟩ := bootVrt_splits s
  rw [State.inQuadrant_iff, State.bootLoad_vrt, bootVrt_burnX, bootVrt_burnY]
  exact ⟨clampSide_mem hx1 hx (frameW_bounds s.params).2 _ _, clampSide_mem hy1 hy (frameH_bounds s.params).2 _ _⟩

/-- The boot load brings the coordinates in range, whatever the store and the defaults hold. -/
theorem bootLoad_coordsOk (s : State) : s.bootLoad.coordsOk := by
  obtain ⟨hx, hy⟩ := bootVrt_splits s
  refine ⟨hx, hy, fun q => ?_⟩
  obtain ⟨hlx, hly, -⟩ := bootLoad_burner_inQuadrant s q
  exact ⟨Nat.le_sub_one_of_lt hlx, Nat.le_sub_one_of_lt hly⟩

/-! ### Runs over a hard reset -/

/-- A run goes on from the next state its first step answers, and ends with a step that answers none. -/
theorem run_succ_cases (M : Host.Core) (s : M.State) (k : Nat) :
    (∃ t, M.step s = .next t ∧ M.run (k + 1) s = M.run k t) ∨
    (∃ r, M.step s = .fault r ∧ M.run (k + 1) s = .fault r) ∨
    (∃ r, M.step s = .refused r ∧ M.run (k + 1) s = .refused r) := by
  rw [Host.Core.run]
  cases M.step s with
  | next t => exact .inl ⟨t, rfl, rfl⟩
  | fault r => exact .inr (.inl ⟨r, rfl, rfl⟩)
  | refused r => exact .inr (.inr ⟨r, rfl, rfl⟩)

theorem run_succ_of_next {s t : State} (h : step s = .next t) (k : Nat) :
    Host.Core.run Sys2Proof.core (k + 1) s = Host.Core.run Sys2Proof.core k t := by
  rcases run_succ_cases Sys2Proof.core s k with ⟨t', hs, hr⟩ | ⟨r, hs, -⟩ | ⟨r, hs, -⟩
  · rw [hr, Host.Outcome.next.inj (h.symm.trans hs)]
  · nomatch h.symm.trans hs
  · nomatch h.symm.trans hs

theorem step_hardReset {s : State} {rest : List Event} (hb : s.bootPending = false)
    (hi : s.inputs = .hardReset :: rest) : step s = .next ({ s with inputs := rest } : State).hardReset :=
  step_event hb hi

/-- After a hard reset the boot load is the next step. -/
theorem run_hardReset_boot {s : State} (hb : s.bootPending = false) :
    Host.Core.run Sys2Proof.core 2 { s with inputs := [.hardReset] } =
      .next ({ s with inputs := [] } : State).hardReset.bootLoad := by
  have hreset := step_hardReset (s := { s with inputs := [.hardReset] }) hb rfl
  have hboot := step_boot (State.hardReset_bootPending ({ s with inputs := [] } : State))
  rw [run_succ_of_next hreset, run_succ_of_next hboot]
  rfl

/-- A split that was stored clamped is loaded as it was stored, whatever the default. -/
theorem clampSplit_stored {n : Nat} (h2 : 2 ≤ n) (hn : n ≤ 256) {v : Byte} (default : Byte) {stored : Option Byte}
    (h : stored = some (clampByte v 1 (n - 1))) :
    clampByte (stored.getD default) 1 (n - 1) = clampByte v 1 (n - 1) := by
  obtain ⟨hlo, hhi⟩ := clampSplit_bounds v h2 hn
  obtain ⟨-, -, hsame⟩ := clampByte_spec (clampByte v 1 (n - 1)) (lo := 1) (hi := n - 1) (by omega) (by omega)
  rw [h, Option.getD_some, hsame hlo hhi]

/-- A port in its reset state but for a reply with its right byte count is legal. -/
theorem Port.ok_reset_with {ack : List Byte} {n : BitVec 11} (h : n.toNat = ack.length) :
    ({ Port.reset with ack := ack, ackLen := n } : Port).Ok :=
  ⟨⟨Nat.zero_le _, rfl⟩, trivial, rfl, fun _ _ => rfl, h⟩

theorem Port.ok_reset : Port.reset.Ok := Port.ok_reset_with (ack := []) (n := 0) rfl

/-! ### The statements -/

/-- Settles O54: the splits are clamped to their range, and the burners to their side of them. -/
theorem bootLoadEstablishesTheCoordinates : Obligations.BootLoadEstablishesTheCoordinates := by
  unfold Obligations.BootLoadEstablishesTheCoordinates
  exact fun s hb => ⟨_, step_boot hb, rfl, bootLoad_coordsOk s, bootLoad_burner_inQuadrant s, rfl, rfl, rfl, rfl, rfl,
    rfl, rfl, rfl, rfl⟩

/-- Settles O55: each clamp of the boot load has bytes for bounds, so it is the clamp of the numbers. -/
theorem bootLoadReadsStoreOrDefaults : Obligations.BootLoadReadsStoreOrDefaults := by
  unfold Obligations.BootLoadReadsStoreOrDefaults
  intro s hb clamped
  have hw := frameW_bounds s.params
  have hh := frameH_bounds s.params
  refine ⟨_, step_boot hb, clampByte_toNat _ (by omega) (by omega), clampByte_toNat _ (by omega) (by omega), ?_⟩
  intro q n xs ys
  have hxs : (bootVrt s).xsplit.toNat ≤ 255 := Nat.le_of_lt_succ (bootVrt s).xsplit.isLt
  have hys : (bootVrt s).ysplit.toNat ≤ 255 := Nat.le_of_lt_succ (bootVrt s).ysplit.isLt
  have hkeyX : (burnKey q false).toNat = 0xCA + 2 * n := by cases q <;> rfl
  have hkeyY : (burnKey q true).toNat = 0xCA + 2 * n + 1 := by cases q <;> rfl
  rw [← hkeyY, ← hkeyX, State.bootLoad_vrt, bootVrt_burnX, bootVrt_burnY,
    clampByte_toNat _ (sideLo_le _ hxs) (sideHi_le _ hxs hw.2),
    clampByte_toNat _ (sideLo_le _ hys) (sideHi_le _ hys hh.2)]
  simp only [sideLo, sideHi, isLeft_iff, isTop_iff]
  exact ⟨rfl, rfl⟩

/-- Settles O56: the store keeps the clamped split over the reset, and the boot load clamps it to the same bounds
again, which changes nothing. -/
theorem persistedSplitsSurviveHardReset : Obligations.PersistedSplitsSurviveHardReset := by
  unfold Obligations.PersistedSplitsSurviveHardReset
  intro s v hb
  obtain ⟨hw2, hw⟩ := frameW_bounds s.params
  obtain ⟨hh2, hh⟩ := frameH_bounds s.params
  refine ⟨_, _, _, _, exec_wreg_coordinate (r := .xsplit) rfl, run_hardReset_boot hb, ?_,
    exec_wreg_coordinate (r := .ysplit) rfl, run_hardReset_boot hb, ?_⟩
  · rw [State.bootLoad_vrt, bootVrt_xsplit, State.nvGet, State.hardReset_store]
    exact clampSplit_stored hw2 hw _ ((Memory.lookup_insert 0xC0 _ 0xC0 s.store).trans (if_pos rfl))
  · rw [State.bootLoad_vrt, bootVrt_ysplit, State.nvGet, State.hardReset_store]
    exact clampSplit_stored hh2 hh _ ((Memory.lookup_insert 0xC1 _ 0xC1 s.store).trans (if_pos rfl))

/-- Settles O57: a hard reset replaces every port, the VRT, the port in hand and the boot flag. -/
theorem hardResetStep : Obligations.HardResetStep := by
  unfold Obligations.HardResetStep
  exact fun s rest hb hi => ⟨_, step_hardReset hb hi, List.map_const' .., rfl, rfl, rfl, rfl, rfl, rfl⟩

/-- Settles O51: every port of the reset state is one and the same, and every group of the VRT is constant. -/
theorem resetValues : Obligations.ResetValues := by
  unfold Obligations.ResetValues
  refine ⟨fun q hq => ?_, ?_, fun q => ?_, rfl, rfl, rfl, rfl, rfl⟩
  · obtain rfl := List.eq_of_mem_replicate hq
    exact ⟨rfl, rfl, rfl, rfl, rfl, Memory.read_nil, rfl, rfl, rfl, rfl, rfl⟩
  · exact (Nat.succ_pos _).trans_eq List.length_replicate.symm
  · cases q <;> exact ⟨rfl, rfl, rfl⟩

/-- Settles O52: the ports are reset ports, the store is empty, and the boot load is still pending. -/
theorem invariantHoldsAtReset : Obligations.InvariantHoldsAtReset := by
  unfold Obligations.InvariantHoldsAtReset
  refine ⟨?_, fun q hq => ?_, rfl, nofun⟩
  · exact (Nat.succ_pos _).trans_eq List.length_replicate.symm
  · rw [List.eq_of_mem_replicate hq]
    exact Port.ok_reset

end Sys2Proof.Machine

end

/-! The steps of the machine (40_frame_parser.md R131, 60_exceptions.md R290 to R298): what a `Feed` step may do, what
no step of one port sees of another or of the events still on offer, and the invariant. -/
section

namespace Sys2Proof.Machine

/-! ### The effect of a `Feed` step -/

/-- A frame is completed from the code its port holds. -/
theorem feed_cmd_of_completeOk {q : Port} {b : Byte} (hr : (feed q b).2 = .completeOk) : (feed q b).1.cmd = q.cmd := by
  have h := feed_cases q b
  generalize feed q b = r at h hr ⊢
  cases h with
  | complete => rfl
  | _ => nomatch hr

/-- A `Feed` step of a port that exists advances its parser, and then has the effect of one command: that of the frame
completed, which is a `WREG` only if its code is, or at most an output. -/
theorem feedPort_effect {s : State} {p : Nat} (b : Byte) (hp : p < s.ports.length) :
    ∃ i t, feedPort p b s = .next t ∧
      CommandEffect i { s with hand := p, ports := s.ports.set p (feed (s.port p) b).1 } t ∧
      ((feed (s.port p) b).1.dataLen.toNat ≤ 512 → i.wellFormed = true) ∧
      (∀ x y, i = .wreg x y → (feed (s.port p) b).2 = .completeOk ∧ (s.port p).cmd = codeWreg) := by
  rw [feedPort_eq b hp]
  set q := (feed (s.port p) b).1 with hq
  set s1 : State := { s with hand := p, ports := s.ports.set p q }
  cases hr : (feed (s.port p) b).2 with
  | cont => exact ⟨.unknown .zero, _, rfl, (CommandEffect.refl _ s1).emit _, fun _ => rfl, nofun⟩
  | reset => exact ⟨.unknown .zero, _, rfl, (CommandEffect.raise _ s1 _).emit _, fun _ => rfl, nofun⟩
  | completeFail => exact ⟨.unknown .zero, _, rfl, (CommandEffect.raise _ s1 _).emit _, fun _ => rfl, nofun⟩
  | completeOk =>
    have hport : s1.port s1.hand = q := State.port_setPort_self (s := s) hp q
    obtain ⟨t, ht, heff⟩ := exec_effect (decodeBody q.cmd q.dataBytes) s1
    refine ⟨decodeBody q.cmd q.dataBytes, t.emit (.result t.hand .completeOk), ?_, heff.emit _, fun hlen => ?_,
      fun x y hi => ⟨rfl, ?_⟩⟩
    · rw [afterFeed, dispatch, hport, ht, withResult]
    · exact wellFormed_decodeBody _ (by rw [dataBytes_length]; exact hlen)
    · rw [← feed_cmd_of_completeOk hr, ← hq, ← code_decodeBody q.cmd q.dataBytes, hi]
      rfl

/-- No event is offered for a port that does not exist (R298). -/
theorem feedPort_noSuchPort {s : State} {p : Nat} (b : Byte) (hp : ¬p < s.ports.length) :
    feedPort p b s = .fault .noSuchPort := by
  rw [feedPort, if_neg hp]

theorem lt_of_feedPort_next {s t : State} {p : Nat} {b : Byte} (h : feedPort p b s = .next t) : p < s.ports.length := by
  by_contra hp
  rw [feedPort_noSuchPort b hp] at h
  nomatch h

/-- The inversion of `feedPort_effect`. -/
theorem effect_of_feedPort_next {s t : State} {p : Nat} {b : Byte} (h : feedPort p b s = .next t) :
    ∃ i, CommandEffect i { s with hand := p, ports := s.ports.set p (feed (s.port p) b).1 } t ∧
      ((feed (s.port p) b).1.dataLen.toNat ≤ 512 → i.wellFormed = true) ∧
      (∀ x y, i = .wreg x y → (feed (s.port p) b).2 = .completeOk ∧ (s.port p).cmd = codeWreg) := by
  obtain ⟨i, t', ht', heff⟩ := feedPort_effect b (lt_of_feedPort_next h)
  obtain rfl := Host.Outcome.next.inj (h.symm.trans ht')
  exact ⟨i, heff⟩

/-- A `Feed` step leaves every other port as it was (10_state.md R23). -/
theorem feedPort_port_of_ne {s t : State} {p p' : Nat} {b : Byte} (h : feedPort p b s = .next t) (hne : p' ≠ p) :
    t.port p' = s.port p' := by
  obtain ⟨i, heff, -⟩ := effect_of_feedPort_next h
  exact (heff.port_of_ne hne).trans (State.port_setPort_of_ne (s := s) hne _)

/-- The parser state after a `Feed` step is the one its parser answers, whatever the command it ran. -/
theorem feedPort_ps {s t : State} {p : Nat} {b : Byte} (h : feedPort p b s = .next t) :
    (t.port p).ps = (feed (s.port p) b).1.ps := by
  obtain ⟨i, heff, -⟩ := effect_of_feedPort_next h
  exact heff.ps_hand.trans (congrArg Port.ps (State.port_setPort_self (lt_of_feedPort_next h) _))

/-- The one-byte edges of the parser's graph (40_frame_parser.md R148). -/
theorem feed_edge (q : Port) (b : Byte) : (q.ps, (feed q b).1.ps) ∈ graphEdges := by
  have h := feed_cases q b
  generalize feed q b = r at h ⊢
  cases h with
  | skip hs | start hs | rejected hs | accepted hs | bodyEnd hs | complete hs => simp [hs, graphEdges]
  | length hs | checksum hs => simp [hs, graphEdges]
  | body hs => simp [hs, graphEdges]

theorem sessionReset_of_lt {s : State} {p : Nat} (hp : p < s.ports.length) :
    sessionReset p s =
      .next (s.setPort p { Port.reset with ack := (s.port p).ack, ackLen := (s.port p).ackLen }) := by
  rw [sessionReset, if_pos hp]
  rfl

theorem sessionReset_next {s t : State} {p : Nat} (h : sessionReset p s = .next t) :
    p < s.ports.length ∧
      t = s.setPort p { Port.reset with ack := (s.port p).ack, ackLen := (s.port p).ackLen } := by
  by_cases hp : p < s.ports.length
  · exact ⟨hp, (Host.Outcome.next.inj (h.symm.trans (sessionReset_of_lt hp)))⟩
  · rw [sessionReset, if_neg hp] at h
    nomatch h

theorem recompute_next_inv {s t : State} {frame : List Half} (h : recompute frame s = .next t) :
    t = { s with vrt := Vrt.commit s.params s.vrt frame }.emit
      (.bcast (s.params.bcastSelect.map (Vrt.result (Vrt.commit s.params s.vrt frame)))) := by
  by_cases hlen : frame.length = s.params.frameW * s.params.frameH
  · exact Host.Outcome.next.inj (h.symm.trans (recompute_next hlen))
  · rw [recompute, if_neg hlen] at h
    nomatch h

@[simp] theorem State.hardReset_port (s : State) (p : Nat) : s.hardReset.port p = Port.reset :=
  List.getD_map s.ports Port.reset fun _ => Port.reset

/-! ### The invariant -/

theorem State.port_ok {s : State} (h : ∀ q ∈ s.ports, q.Ok) (p : Nat) : (s.port p).Ok := by
  by_cases hp : p < s.ports.length
  · exact h _ (State.port_mem hp)
  · rw [State.port, List.getD_eq_default _ _ (Nat.le_of_not_lt hp)]
    exact Port.ok_reset

theorem ports_set_ok {l : List Port} (h : ∀ q ∈ l, q.Ok) {p : Nat} {x : Port} (hx : x.Ok) : ∀ q ∈ l.set p x, q.Ok := by
  intro q hq
  rcases List.mem_or_eq_of_mem_set hq with hq | rfl
  · exact h q hq
  · exact hx

/-- A reply with its right byte count keeps a port legal. -/
theorem Port.Ok.reply {q : Port} (h : q.Ok) {bytes : List Byte} {n : BitVec 11} (hn : n.toNat = bytes.length) :
    ({ q with ack := bytes, ackLen := n } : Port).Ok := by
  obtain ⟨hwf, hzero, -⟩ := h.buffers
  exact ⟨h.counters, h.phase, hwf, hzero, hn⟩

/-- A write of any register keeps the coordinates in range: it is clamped to the bounds of its own (R178 to R180). -/
theorem writeReg_coordsOk {s t : State} (h : s.coordsOk) (r : Reg) (v : Byte) (hp : t.params = s.params)
    (hv : t.vrt = Vrt.writeReg s.params s.vrt r v) : t.coordsOk := by
  obtain ⟨hw2, hw⟩ := frameW_bounds s.params
  obtain ⟨hh2, hh⟩ := frameH_bounds s.params
  obtain ⟨hx, hy, hburn⟩ := h
  rw [State.coordsOk, hp, hv]
  cases r with
  | xsplit => exact ⟨clampSplit_bounds v hw2 hw, hy, hburn⟩
  | ysplit => exact ⟨hx, clampSplit_bounds v hh2 hh, hburn⟩
  | burnX q =>
    refine ⟨hx, hy, fun q' => ⟨?_, (hburn q').2⟩⟩
    simp only [Vrt.writeReg, PerQuad.get_set, xlo_eq_side, xhi_eq_side]
    split
    · exact Nat.le_sub_one_of_lt (clampSide_mem hx.1 hx.2 hw _ v).1
    · exact (hburn q').1
  | burnY q =>
    refine ⟨hx, hy, fun q' => ⟨(hburn q').1, ?_⟩⟩
    simp only [Vrt.writeReg, PerQuad.get_set, ylo_eq_side, yhi_eq_side]
    split
    · exact Nat.le_sub_one_of_lt (clampSide_mem hy.1 hy.2 hh _ v).1
    · exact (hburn q').2
  | max | center | burnT => exact ⟨hx, hy, hburn⟩

/-- A command that a frame can carry keeps the invariant. -/
theorem CommandEffect.inv {i : Instr} {s t : State} (h : CommandEffect i s t) (hi : i.wellFormed = true) (hs : s.Inv) :
    t.Inv := by
  obtain ⟨hlen, hport, hstore, hcoords⟩ := hs
  refine ⟨h.ports_length ▸ hlen, ?_, ?_, fun hb => ?_⟩
  · rcases h.ports with hp | ⟨bytes, n, hp, hn⟩ <;> rw [hp]
    · exact hport
    · exact ports_set_ok hport ((State.port_ok hport s.hand).reply (hn hi))
  · rcases h.registers with ⟨-, hst⟩ | ⟨a, v, r, b, -, hr, -, hb, hst⟩ <;> rw [hst]
    · exact hstore
    · exact Memory.storeWf_insert hstore (storeKeys_of_coordinate hr hb) b
  · have hcoords := hcoords (h.bootPending ▸ hb)
    rcases h.registers with ⟨hv, -⟩ | ⟨a, v, r, b, -, -, hv, -⟩
    · rw [State.coordsOk, hv, h.params]
      exact hcoords
    · exact writeReg_coordsOk hcoords r v h.params hv

theorem State.Inv.setPort {s : State} (h : s.Inv) (p : Nat) {x : Port} (hx : x.Ok) : (s.setPort p x).Inv :=
  ⟨by rw [State.setPort_ports, List.length_set]; exact h.ports, ports_set_ok h.port hx, h.store, h.coords⟩

theorem feedPort_inv {s t : State} {p : Nat} {b : Byte} (hs : s.Inv) (h : feedPort p b s = .next t) : t.Inv := by
  obtain ⟨i, heff, hwf, -⟩ := effect_of_feedPort_next h
  have hq := feed_ok (State.port_ok hs.port p) b
  obtain ⟨hlen, hport, hstore, hcoords⟩ := hs.setPort p hq
  obtain ⟨⟨hdata, -⟩, -⟩ := hq
  exact heff.inv (hwf hdata) ⟨hlen, hport, hstore, hcoords⟩

theorem sessionReset_inv {s t : State} {p : Nat} (hs : s.Inv) (h : sessionReset p s = .next t) : t.Inv := by
  obtain ⟨-, rfl⟩ := sessionReset_next h
  obtain ⟨-, -, hack⟩ := (State.port_ok hs.port p).buffers
  exact hs.setPort p (Port.ok_reset_with hack)

theorem takeEvent_inv {s t : State} {e : Event} (hs : s.Inv) (h : takeEvent e s = .next t) : t.Inv := by
  cases e with
  | byte p b => exact feedPort_inv hs h
  | chunk p bytes =>
    obtain rfl := Host.Outcome.next.inj h
    exact ⟨hs.ports, hs.port, hs.store, hs.coords⟩
  | sreset p => exact sessionReset_inv hs h
  | capture frame =>
    obtain rfl := recompute_next_inv h
    exact ⟨hs.ports, hs.port, hs.store, hs.coords⟩
  | hardReset =>
    obtain rfl := Host.Outcome.next.inj h
    refine ⟨by rw [State.hardReset_ports, List.length_map]; exact hs.ports, fun q hq => ?_, hs.store, nofun⟩
    obtain ⟨-, -, rfl⟩ := List.mem_map.1 hq
    exact Port.ok_reset

/-- Settles O53: the boot load establishes the coordinates, and every event keeps each part of the invariant. -/
theorem everyStepKeepsTheInvariant : Obligations.EveryStepKeepsTheInvariant := by
  unfold Obligations.EveryStepKeepsTheInvariant
  intro s t hs h
  cases hb : s.bootPending with
  | true =>
    obtain rfl := Host.Outcome.next.inj ((step_boot hb).symm.trans h)
    exact ⟨hs.ports, hs.port, hs.store, fun _ => bootLoad_coordsOk s⟩
  | false =>
    cases hi : s.inputs with
    | nil =>
      obtain rfl := Host.Outcome.next.inj ((step_idle hb hi).symm.trans h)
      exact hs
    | cons e rest =>
      rw [step_event hb hi] at h
      exact takeEvent_inv (s := { s with inputs := rest }) ⟨hs.ports, hs.port, hs.store, hs.coords⟩ h

/-! ### What no step sees -/

/-- A state with other ports or other events on offer. -/
def State.remap (s : State) (fp : List Port → List Port) (fi : List Event → List Event) : State :=
  { s with ports := fp s.ports, inputs := fi s.inputs }

/-- A change of the list of ports that neither reads nor writes port `p`. -/
structure LeavesPort (fp : List Port → List Port) (p : Nat) : Prop where
  set : ∀ l q, fp (l.set p q) = (fp l).set p q
  getD : ∀ l, (fp l).getD p .reset = l.getD p .reset
  length : ∀ l, (fp l).length = l.length

theorem LeavesPort.id (p : Nat) : LeavesPort (fun l => l) p := ⟨fun _ _ => rfl, fun _ => rfl, fun _ => rfl⟩

theorem LeavesPort.set_of_ne {p p' : Nat} (h : p' ≠ p) (x : Port) : LeavesPort (fun l => l.set p' x) p :=
  ⟨fun _ _ => List.set_comm _ _ h.symm, fun l => by simp [List.getD, List.getElem?_set_ne h], fun _ => List.length_set⟩

section
variable {fp : List Port → List Port} {fi : List Event → List Event}

theorem brokerRead_remap (s : State) (a : Byte) :
    brokerRead (s.remap fp fi) a = ((brokerRead s a).1, (brokerRead s a).2.remap fp fi) := by
  cases hc : classify a with
  | analysis =>
    obtain ⟨r, rfl⟩ := exists_addr_of_analysis hc
    rw [brokerRead_addr, brokerRead_addr]
    rfl
  | version =>
    rw [brokerRead_of_version hc, brokerRead_of_version hc]
    rfl
  | hardware =>
    rw [brokerRead_of_hardware hc, brokerRead_of_hardware hc, State.hwRead, State.hwRead]
    cases hs : s.sensorAnswers <;> simp [State.remap, State.emit, hs]

theorem readSequence_remap (s : State) (l : List Byte) :
    readSequence (s.remap fp fi) l = ((readSequence s l).1, (readSequence s l).2.remap fp fi) := by
  induction l generalizing s with
  | nil => rfl
  | cons a l ih => simp only [readSequence, valueText, brokerRead_remap, ih]

theorem brokerWrite_remap (s : State) (a v : Byte) :
    brokerWrite (s.remap fp fi) a v = ((brokerWrite s a v).1, (brokerWrite s a v).2.remap fp fi) := by
  cases hc : classify a with
  | hardware =>
    rw [brokerWrite_of_hardware hc, brokerWrite_of_hardware hc]
    rfl
  | version =>
    simp only [brokerWrite, hc]
  | analysis =>
    obtain ⟨r, rfl⟩ := exists_addr_of_analysis hc
    rw [brokerWrite_addr, brokerWrite_addr]
    cases r <;> rfl

theorem setPort_remap {s : State} {p : Nat} (h : LeavesPort fp p) (x : Port) :
    (s.remap fp fi).setPort p x = (s.setPort p x).remap fp fi := by
  simp only [State.remap, State.setPort, h.set]

theorem port_remap {s : State} {p : Nat} (h : LeavesPort fp p) : (s.remap fp fi).port p = s.port p := h.getD s.ports

theorem buildAck_remap {s : State} (h : LeavesPort fp s.hand) (c : Bytes4) (m : List Byte) :
    (s.remap fp fi).buildAck c m = (s.buildAck c m).remap fp fi := by
  unfold State.buildAck
  rw [show (s.remap fp fi).hand = s.hand from rfl, port_remap h]
  dsimp only
  rw [setPort_remap h]
  rfl

theorem pollAllowed_remap {s : State} (h : LeavesPort fp s.hand) (x : Operand) :
    pollAllowed x (s.remap fp fi) = (pollAllowed x s).remap fp fi := by
  cases x with
  | ok f => exact buildAck_remap (s := s.setPoll (clampFreq f)) h codePoll []
  | missing => exact buildAck_remap (s := s.raise .invalidCommandData) h codePoll []
  | malformed => exact buildAck_remap (s := s.raise .invalidCommandData) h codePoll []

theorem streamConflict_remap (s : State) :
    (s.remap fp fi).streamConflict = (s.streamConflict.1, s.streamConflict.2.remap fp fi) := by
  rw [State.streamConflict, State.streamConflict]
  cases hs : s.conflictAnswers <;> simp [State.remap, hs]

/-- A command does not see the other ports or the events on offer. -/
theorem exec_remap (i : Instr) {s : State} (h : LeavesPort fp s.hand) :
    exec i (s.remap fp fi) = mapNext (fun t => t.remap fp fi) (exec i s) := by
  have hraise (e : ErrorKind) : (s.remap fp fi).raise e = (s.raise e).remap fp fi := rfl
  cases i with
  | wreg x y =>
    by_cases hxy : ∃ a v, x = .ok a ∧ y = .ok v
    · obtain ⟨a, v, rfl, rfl⟩ := hxy
      have hhand : (brokerWrite s a v).2.hand = s.hand := (UnrepliedSince.brokerWrite s a v).hand
      rw [exec_wreg_ok, exec_wreg_ok, brokerWrite_remap, buildAck_remap (hhand ▸ h)]
      rfl
    · have hinv : ∀ a v, ¬(x = .ok a ∧ y = .ok v) := fun a v hav => hxy ⟨a, v, hav⟩
      rw [exec_wreg_invalid hinv, exec_wreg_invalid hinv, hraise,
        buildAck_remap (s := s.raise .invalidCommandData) h]
      rfl
  | rreg x =>
    by_cases hx : ∃ a, x = .ok a
    · obtain ⟨a, rfl⟩ := hx
      rw [exec_rreg_ok, exec_rreg_ok, valueText, valueText, brokerRead_remap,
        buildAck_remap ((brokerRead_same s a).hand ▸ h)]
      rfl
    · rw [exec_rreg_invalid (not_exists.1 hx), exec_rreg_invalid (not_exists.1 hx), hraise]
      rfl
  | rrse l =>
    cases hl : validAddrs l with
    | some m =>
      simp only [exec, execRrse, hl, readSequence_remap, buildAck_remap ((readSequence_same s m).hand ▸ h), mapNext]
    | none =>
      rw [exec_rrse_invalid hl, exec_rrse_invalid hl, hraise]
      rfl
  | poll x =>
    have hhand : s.streamConflict.2.hand = s.hand := (UnrepliedSince.streamConflict s).hand
    simp only [exec, execPoll, streamConflict_remap, mapNext]
    split
    · rfl
    · rw [pollAllowed_remap (hhand ▸ h)]
  | unknown c => rfl

theorem withResult_mapNext_remap (r : FeedResult) (o : Host.Outcome State Fault Refusal) :
    withResult r (mapNext (fun t => t.remap fp fi) o) = mapNext (fun t => t.remap fp fi) (withResult r o) := by
  cases o <;> rfl

/-- A `Feed` step does not see the other ports or the events on offer. -/
theorem feedPort_remap {s : State} {p : Nat} (h : LeavesPort fp p) (b : Byte) :
    feedPort p b (s.remap fp fi) = mapNext (fun t => t.remap fp fi) (feedPort p b s) := by
  by_cases hp : p < s.ports.length
  · have hp' : p < (s.remap fp fi).ports.length := (h.length s.ports).symm ▸ hp
    set s1 : State := { s.setPort p (feed (s.port p) b).1 with hand := p } with hs1
    have hset : ({ (s.remap fp fi).setPort p (feed (s.port p) b).1 with hand := p } : State) = s1.remap fp fi := by
      rw [setPort_remap h]
      rfl
    have hafter : afterFeed (feed (s.port p) b).2 (s1.remap fp fi) =
        mapNext (fun t => t.remap fp fi) (afterFeed (feed (s.port p) b).2 s1) := by
      cases (feed (s.port p) b).2 with
      | cont | reset | completeFail => rfl
      | completeOk =>
        rw [afterFeed, afterFeed, dispatch, dispatch, show (s1.remap fp fi).hand = p from rfl, port_remap h]
        exact exec_remap _ h
    rw [feedPort, feedPort, if_pos hp, if_pos hp', port_remap h]
    dsimp only
    rw [hset, hafter, withResult_mapNext_remap]
  · rw [feedPort_noSuchPort b hp, feedPort_noSuchPort b ((h.length s.ports).symm ▸ hp)]
    rfl

theorem sessionReset_remap {s : State} {p : Nat} (h : LeavesPort fp p) :
    sessionReset p (s.remap fp fi) = mapNext (fun t => t.remap fp fi) (sessionReset p s) := by
  by_cases hp : p < s.ports.length
  · have hp' : p < (s.remap fp fi).ports.length := (h.length s.ports).symm ▸ hp
    rw [sessionReset, sessionReset, if_pos hp, if_pos hp', port_remap h, setPort_remap h]
    rfl
  · have hp' : ¬p < (s.remap fp fi).ports.length := (h.length s.ports).symm ▸ hp
    rw [sessionReset, sessionReset, if_neg hp, if_neg hp']
    rfl

theorem recompute_remap (frame : List Half) (s : State) :
    recompute frame (s.remap fp fi) = mapNext (fun t => t.remap fp fi) (recompute frame s) := by
  by_cases hlen : frame.length = s.params.frameW * s.params.frameH
  · rw [recompute_next hlen, recompute_next (s := s.remap fp fi) hlen]
    rfl
  · have hne (u : State) (hu : u.params = s.params) : recompute frame u = .refused .frameSize := if_neg (hu ▸ hlen)
    rw [hne s rfl, hne (s.remap fp fi) rfl]
    rfl

end

/-! ### Runs of bytes on offer -/

/-- The step of a byte, whatever is on offer behind it. -/
theorem step_byte_of_next {s t : State} {p : Nat} {b : Byte} (hb : s.bootPending = false)
    (h : feedPort p b s = .next t) (tail : List Event) :
    step { s with inputs := .byte p b :: tail } = .next { t with inputs := tail } := by
  have hremap := feedPort_remap (fi := fun _ => tail) (LeavesPort.id p) (s := s) b
  rw [h] at hremap
  exact (step_byte (s := { s with inputs := .byte p b :: tail }) hb rfl).trans hremap

/-- The step of a byte keeps the machine running. -/
theorem feedPort_bootPending {s t : State} {p : Nat} {b : Byte} (h : feedPort p b s = .next t) :
    t.bootPending = s.bootPending := by
  obtain ⟨i, heff, -⟩ := effect_of_feedPort_next h
  exact heff.bootPending

theorem step_chunk {s : State} {p : Nat} {bytes : List Byte} {rest : List Event} (hb : s.bootPending = false)
    (hi : s.inputs = .chunk p bytes :: rest) :
    step s = .next { s with inputs := (bytes.take 524).map (Event.byte p) ++ rest } := step_event hb hi

theorem run_succ_of_fault {s : State} {r : Fault} (h : step s = .fault r) (k : Nat) :
    Host.Core.run Sys2Proof.core (k + 1) s = .fault r := by
  rcases run_succ_cases Sys2Proof.core s k with ⟨t, hs, -⟩ | ⟨r', hs, hr⟩ | ⟨r', hs, -⟩
  · nomatch h.symm.trans hs
  · rw [hr, Host.Outcome.fault.inj (h.symm.trans hs)]
  · nomatch h.symm.trans hs

/-- Bytes `u` on offer before the bytes `v`, or before a chunk of them, which one step more expands. -/
theorem run_bytes_before_chunk {p : Nat} {v : List Byte} (hv : v.length ≤ 524) (rest : List Event) (u : List Byte) :
    ∀ {s : State}, s.bootPending = false →
      Host.Core.run Sys2Proof.core (u.length + v.length)
        { s with inputs := u.map (Event.byte p) ++ (v.map (Event.byte p) ++ rest) } =
      Host.Core.run Sys2Proof.core (u.length + (v.length + 1))
        { s with inputs := u.map (Event.byte p) ++ .chunk p v :: rest } := by
  induction u with
  | nil =>
    intro s hb
    have hstep := step_chunk (s := { s with inputs := .chunk p v :: rest }) hb rfl
    rw [List.take_of_length_le hv] at hstep
    simp only [List.length_nil, Nat.zero_add, List.map_nil, List.nil_append]
    exact (run_succ_of_next hstep _).symm
  | cons b u ih =>
    intro s hb
    simp only [List.length_cons, Nat.add_right_comm _ 1, List.map_cons, List.cons_append]
    by_cases hp : p < s.ports.length
    · obtain ⟨-, t, ht, -⟩ := feedPort_effect b hp
      have hbt : t.bootPending = false := (feedPort_bootPending ht).trans hb
      rw [run_succ_of_next (step_byte_of_next hb ht _), run_succ_of_next (step_byte_of_next hb ht _)]
      exact ih hbt
    · have hfault (tail : List Event) : step { s with inputs := .byte p b :: tail } = .fault .noSuchPort :=
        (step_byte (s := { s with inputs := .byte p b :: tail }) hb rfl).trans
          (feedPort_noSuchPort (s := { s with inputs := tail }) b hp)
      rw [run_succ_of_fault (hfault _), run_succ_of_fault (hfault _)]

/-! ### The statements -/

/-- Settles O18: both deliveries reach the same bytes on offer, the second with one step more. -/
theorem chunkBoundariesAreInvisible : Obligations.ChunkBoundariesAreInvisible := by
  unfold Obligations.ChunkBoundariesAreInvisible
  intro s p u v rest hb hlen
  have hone := step_chunk (s := { s with inputs := .chunk p (u ++ v) :: rest }) hb rfl
  have htwo := step_chunk (s := { s with inputs := .chunk p u :: .chunk p v :: rest }) hb rfl
  rw [List.take_of_length_le (by rw [List.length_append]; omega), List.map_append, List.append_assoc] at hone
  rw [List.take_of_length_le (by omega)] at htwo
  rw [Nat.add_comm 1, Nat.add_comm 2, run_succ_of_next hone, run_succ_of_next htwo]
  exact run_bytes_before_chunk (by omega) rest u hb

/-- Settles O19: the step of a chunk. -/
theorem chunksAreCutAt524Bytes : Obligations.ChunksAreCutAt524Bytes := by
  unfold Obligations.ChunksAreCutAt524Bytes
  exact fun s p bytes rest hb hi => step_chunk hb hi

/-- Settles O20: a re-initialised port in `SeekStart` is the reset port with its reply kept. -/
theorem sessionResetDiscardsTheFrame : Obligations.SessionResetDiscardsTheFrame := by
  unfold Obligations.SessionResetDiscardsTheFrame
  intro s p rest hb hi hp
  exact (step_event hb hi).trans (sessionReset_of_lt (s := { s with inputs := rest }) hp)

/-- Settles O11: the parser completes the frame on a port back in `SeekStart`, whose code and data are dispatched. -/
theorem acceptedFrameStepIsExecOfItsCommand : Obligations.AcceptedFrameStepIsExecOfItsCommand := by
  unfold Obligations.AcceptedFrameStepIsExecOfItsCommand
  intro s p b rest hb hi hp hs hc hv
  set q : Port := { s.port p with csField := (s.port p).csField.set 3 b, ps := .seekStart, cnt := 0 } with hq
  set s1 : State := { s with inputs := rest, hand := p, ports := s.ports.set p q }
  have hfeed : feed (s.port p) b = (q, .completeOk) := by
    rw [feed_complete hs (by simp [hc]), hv]
    rfl
  have hport : s1.port s1.hand = q := State.port_setPort_self (s := s) hp q
  obtain ⟨t, ht, heff⟩ := exec_effect (decodeBody (s.port p).cmd (s.port p).dataBytes) s1
  refine ⟨t, ht, ?_⟩
  calc step s
      = feedPort p b { s with inputs := rest } := step_byte hb hi
    _ = withResult .completeOk (dispatch s1) := by
      have hsame : State.port { s with inputs := rest } p = s.port p := rfl
      rw [feedPort_eq (s := { s with inputs := rest }) b hp, hsame, hfeed]
      rfl
    _ = withResult .completeOk (.next t) := by
      rw [dispatch, hport]
      exact congrArg _ ht
    _ = .next (t.outputting [.result p .completeOk]) := by
      rw [withResult, heff.hand]
      rfl

/-- Settles O22: a byte moves its own port along an edge of `feed`, a session reset and a hard reset put `SeekStart`,
and no other step writes a parser state. -/
theorem parserMovesOnlyAlongItsGraph : Obligations.ParserMovesOnlyAlongItsGraph := by
  unfold Obligations.ParserMovesOnlyAlongItsGraph
  intro s t e rest p hb hi hstep hp
  rw [step_event hb hi] at hstep
  cases e with
  | byte p' b =>
    dsimp only
    split
    · rename_i heq
      subst heq
      rw [feedPort_ps hstep]
      exact feed_edge _ b
    · rename_i hne
      exact congrArg Port.ps (feedPort_port_of_ne (s := { s with inputs := rest }) hstep (Ne.symm hne))
  | chunk p' bytes =>
    obtain rfl := Host.Outcome.next.inj hstep
    rfl
  | sreset p' =>
    obtain ⟨hp', rfl⟩ := sessionReset_next hstep
    dsimp only
    split
    · rename_i heq
      subst heq
      rw [State.port_setPort_self hp']
      rfl
    · rename_i hne
      exact congrArg Port.ps (State.port_setPort_of_ne (s := { s with inputs := rest }) (Ne.symm hne) _)
  | capture frame =>
    obtain rfl := recompute_next_inv hstep
    rfl
  | hardReset =>
    obtain rfl := Host.Outcome.next.inj hstep
    exact congrArg Port.ps (State.hardReset_port _ p)

/-- Settles O23: a write of another port is a change that a `Feed` step, a session reset and a recompute do not see. -/
theorem portsAreIsolated : Obligations.PortsAreIsolated := by
  unfold Obligations.PortsAreIsolated
  intro s p p' x b frame hne
  have h := LeavesPort.set_of_ne hne x
  refine ⟨feedPort_remap (fi := fun l => l) h b, sessionReset_remap (fi := fun l => l) h,
    recompute_remap (fp := fun l => l.set p' x) (fi := fun l => l) frame s,
    fun t ht => feedPort_port_of_ne ht hne, fun t ht => ?_⟩
  obtain rfl := recompute_next_inv ht
  rfl

/-- Settles O58: the effect of a byte is that of one command, which writes a coordinate only if it is a `WREG`; the
other events write what their own rule says. -/
theorem onlyTheirAgentsWriteTheRegisters : Obligations.OnlyTheirAgentsWriteTheRegisters := by
  unfold Obligations.OnlyTheirAgentsWriteTheRegisters
  intro s t e rest hb hi hstep
  rw [step_event hb hi] at hstep
  cases e with
  | byte p b =>
    obtain ⟨i, heff, -, hwreg⟩ := effect_of_feedPort_next hstep
    obtain ⟨hmax, hcenter, hburnT, hdevId⟩ := heff.computed
    refine ⟨hmax, hcenter, hburnT, hdevId, fun hne => ?_⟩
    by_contra hnot
    exact hne (heff.registers_of_not_wreg fun x y hi => hnot (hwreg x y hi)).1
  | chunk p bytes =>
    obtain rfl := Host.Outcome.next.inj hstep
    rfl
  | sreset p =>
    obtain ⟨-, rfl⟩ := sessionReset_next hstep
    rfl
  | capture frame =>
    obtain rfl := recompute_next_inv hstep
    exact ⟨rfl, rfl, rfl, rfl, rfl⟩
  | hardReset =>
    obtain rfl := Host.Outcome.next.inj hstep
    rfl

/-- Settles O60: a legal event names a port that exists or a frame of the right size, and only a chunk puts events back
on offer. -/
theorem everyLegalEventHasANextState : Obligations.EveryLegalEventHasANextState := by
  unfold Obligations.EveryLegalEventHasANextState
  intro s e rest hb hi hlegal
  rw [step_event hb hi]
  cases e with
  | byte p b =>
    obtain ⟨i, t, ht, heff, -⟩ := feedPort_effect (s := { s with inputs := rest }) b hlegal
    exact ⟨t, ht, fun _ => heff.inputs, nofun⟩
  | chunk p bytes =>
    refine ⟨_, rfl, fun h => absurd rfl (h p bytes), fun p' bytes' h => ?_⟩
    cases h
    rfl
  | sreset p => exact ⟨_, sessionReset_of_lt (s := { s with inputs := rest }) hlegal, fun _ => rfl, nofun⟩
  | capture frame => exact ⟨_, recompute_next (s := { s with inputs := rest }) hlegal, fun _ => rfl, nofun⟩
  | hardReset => exact ⟨_, rfl, fun _ => rfl, nofun⟩

end Sys2Proof.Machine

end
